-- ==== Sys2Proof/Word.lean ====
section
/-! DEFINITION. The word and the byte of this hardware: a word is a 16-bit unsigned number (R12, R13, 00_scope.md), arithmetic on it is modulo 2^16. -/

namespace Sys2Proof

/-- A word, the unit of memory and of the registers (R12, R41). -/
abbrev Word := BitVec 16

/-- An 8-bit value: a keyboard or console character, a byte of an image file (R42). -/
abbrev Byte := BitVec 8

end Sys2Proof
end

