-- ==== Sys2Proof/Syntax.lean ====
section
/-! DEFINITION. The instructions: one constructor per row of spec/opcode_table.json, with the fields that row's rule names (R61, R63, 30_encoding.md). Bits no field names are ignored by the decoder (R65) and are not part of an instruction. -/

namespace Sys2Proof

/-- A general register selector, 0 to 7 (R20). -/
abbrev Reg := Fin 8

/-- R7, the return linkage of `JSR`, `JSRR` and `TRAP` (R21). -/
abbrev Reg.link : Reg := 7

/-- R0, the argument or result of the trap routines (R21). -/
abbrev Reg.arg : Reg := 0

inductive Instr where
  /-- `BR`: condition mask `n z p` (bit 2 is n, bit 1 is z, bit 0 is p) and word offset (R100). -/
  | br (mask : BitVec 3) (offset9 : BitVec 9)
  /-- `ADD`, register form (R90). -/
  | addReg (dr sr1 sr2 : Reg)
  /-- `ADD`, immediate form (R90). -/
  | addImm (dr sr1 : Reg) (imm5 : BitVec 5)
  /-- `LD` (R111). -/
  | ld (dr : Reg) (offset9 : BitVec 9)
  /-- `ST` (R118). -/
  | st (sr : Reg) (offset9 : BitVec 9)
  /-- `JSR` (R103). -/
  | jsr (offset11 : BitVec 11)
  /-- `JSRR` (R104). -/
  | jsrr (baseR : Reg)
  /-- `AND`, register form (R91). -/
  | andReg (dr sr1 sr2 : Reg)
  /-- `AND`, immediate form (R91). -/
  | andImm (dr sr1 : Reg) (imm5 : BitVec 5)
  /-- `LDR` (R113). -/
  | ldr (dr baseR : Reg) (offset6 : BitVec 6)
  /-- `STR` (R120). -/
  | str (sr baseR : Reg) (offset6 : BitVec 6)
  /-- `RTI`, inert (R125). -/
  | rti
  /-- `NOT` (R92). -/
  | not (dr sr1 : Reg)
  /-- `LDI` (R112). -/
  | ldi (dr : Reg) (offset9 : BitVec 9)
  /-- `STI` (R119). -/
  | sti (sr : Reg) (offset9 : BitVec 9)
  /-- `JMP`, and `RET` when the base register is R7 (R101, R102). -/
  | jmp (baseR : Reg)
  /-- The reserved opcode 0xD, inert (R126). -/
  | reserved
  /-- `LEA` (R117). -/
  | lea (dr : Reg) (offset9 : BitVec 9)
  /-- `TRAP 0x20` (R128). -/
  | trapGetc
  /-- `TRAP 0x21` (R129). -/
  | trapOut
  /-- `TRAP 0x22` (R130). -/
  | trapPuts
  /-- `TRAP 0x23` (R131). -/
  | trapIn
  /-- `TRAP 0x24` (R132). -/
  | trapPutsp
  /-- `TRAP 0x25` (R133). -/
  | trapHalt
  /-- `TRAP` with a vector outside 0x20 to 0x25 (R134). -/
  | trapOther (trapvect : BitVec 8)
  deriving DecidableEq, Repr

end Sys2Proof
end

