-- ==== Sys2Proof/WellFormed.lean ====
section
/-! DEFINITION. Which instruction terms stand for an instruction word. The field types already hold every bound but one: a `TRAP` of "another vector" has a vector that selects no routine (R66, R134). -/

namespace Sys2Proof

/-- A vector that selects one of the six routines: 0x20 to 0x25 (R5, R127). -/
def isRoutineVector (v : BitVec 8) : Bool := decide (0x20#8 ≤ v ∧ v ≤ 0x25#8)

/-- The one check of well-formedness: the vector of `trapOther` lies outside 0x20 to 0x25 (R134). -/
def Instr.wellFormed : Instr → Bool
  | .trapOther v => !isRoutineVector v
  | .br _ _ | .addReg _ _ _ | .addImm _ _ _ | .ld _ _ | .st _ _ | .jsr _ | .jsrr _
  | .andReg _ _ _ | .andImm _ _ _ | .ldr _ _ _ | .str _ _ _ | .rti | .not _ _ | .ldi _ _
  | .sti _ _ | .jmp _ | .reserved | .lea _ _ | .trapGetc | .trapOut | .trapPuts | .trapIn
  | .trapPutsp | .trapHalt => true

end Sys2Proof
end

