-- ==== Sys2Proof/Decode.lean ====
section
/-! DEFINITION. The decoder, a pure view over a 16-bit word that never fails (R60, R65, R83), and the encoder written from the layouts of R63 with their canonical values for the bits no field names. -/

namespace Sys2Proof

/-- A 3-bit register selector of `ir` whose lowest bit is bit `lo` (R61). -/
def regField (ir : Word) (lo : Nat) : Reg := ⟨(ir.extractLsb' lo 3).toNat, (ir.extractLsb' lo 3).isLt⟩

/-- The choice of a trap routine by the vector `ir[7:0]` (R127). -/
def decodeTrap (v : BitVec 8) : Instr :=
  if v = 0x20 then .trapGetc
  else if v = 0x21 then .trapOut
  else if v = 0x22 then .trapPuts
  else if v = 0x23 then .trapIn
  else if v = 0x24 then .trapPutsp
  else if v = 0x25 then .trapHalt
  else .trapOther v

/-- The instruction of a word: the opcode map of R62, the fields of R61, the forms chosen by `ir[5]`
(opcodes 1 and 5), `ir[11]` (opcode 4) and `ir[7:0]` (opcode 15). The last arm is opcode 0xF. -/
def decode (ir : Word) : Instr :=
  match (ir.extractLsb' 12 4).toNat with
  | 0x0 => .br (ir.extractLsb' 9 3) (ir.extractLsb' 0 9)
  | 0x1 => if ir.getLsbD 5 then .addImm (regField ir 9) (regField ir 6) (ir.extractLsb' 0 5)
           else .addReg (regField ir 9) (regField ir 6) (regField ir 0)
  | 0x2 => .ld (regField ir 9) (ir.extractLsb' 0 9)
  | 0x3 => .st (regField ir 9) (ir.extractLsb' 0 9)
  | 0x4 => if ir.getLsbD 11 then .jsr (ir.extractLsb' 0 11) else .jsrr (regField ir 6)
  | 0x5 => if ir.getLsbD 5 then .andImm (regField ir 9) (regField ir 6) (ir.extractLsb' 0 5)
           else .andReg (regField ir 9) (regField ir 6) (regField ir 0)
  | 0x6 => .ldr (regField ir 9) (regField ir 6) (ir.extractLsb' 0 6)
  | 0x7 => .str (regField ir 9) (regField ir 6) (ir.extractLsb' 0 6)
  | 0x8 => .rti
  | 0x9 => .not (regField ir 9) (regField ir 6)
  | 0xA => .ldi (regField ir 9) (ir.extractLsb' 0 9)
  | 0xB => .sti (regField ir 9) (ir.extractLsb' 0 9)
  | 0xC => .jmp (regField ir 6)
  | 0xD => .reserved
  | 0xE => .lea (regField ir 9) (ir.extractLsb' 0 9)
  | _ => decodeTrap (ir.extractLsb' 0 8)

/-- The decoder over a word numbered as spec/opcode_table.json numbers it. Every row has 16 bits (R60):
a count of bits above 16 is no instruction of this hardware; bits above the count are 0 (log 16). -/
def decodeTableWord (nbits w : Nat) : Option Instr :=
  if nbits ≤ 16 then some (decode (BitVec.ofNat 16 (w % 2 ^ nbits))) else none

/-- The three bits of a register selector. -/
def regBits (r : Reg) : BitVec 3 := BitVec.ofNat 3 r.val

/-- The word of an instruction: the layouts of R63, most significant field first, with the canonical
value where the hardware ignores a bit. The zeros of `JSRR` and `RTI` are the spec's general knowledge
(R63), those of the reserved opcode the model's (log 10). -/
def encode : Instr → Word
  | .br mask offset9 => 0b0000#4 ++ mask ++ offset9
  | .addReg dr sr1 sr2 => 0b0001#4 ++ regBits dr ++ regBits sr1 ++ 0b0#1 ++ 0b00#2 ++ regBits sr2
  | .addImm dr sr1 imm5 => 0b0001#4 ++ regBits dr ++ regBits sr1 ++ 0b1#1 ++ imm5
  | .ld dr offset9 => 0b0010#4 ++ regBits dr ++ offset9
  | .st sr offset9 => 0b0011#4 ++ regBits sr ++ offset9
  | .jsr offset11 => 0b0100#4 ++ 0b1#1 ++ offset11
  | .jsrr baseR => 0b0100#4 ++ 0b0#1 ++ 0b00#2 ++ regBits baseR ++ 0b000000#6
  | .andReg dr sr1 sr2 => 0b0101#4 ++ regBits dr ++ regBits sr1 ++ 0b0#1 ++ 0b00#2 ++ regBits sr2
  | .andImm dr sr1 imm5 => 0b0101#4 ++ regBits dr ++ regBits sr1 ++ 0b1#1 ++ imm5
  | .ldr dr baseR offset6 => 0b0110#4 ++ regBits dr ++ regBits baseR ++ offset6
  | .str sr baseR offset6 => 0b0111#4 ++ regBits sr ++ regBits baseR ++ offset6
  | .rti => 0b1000#4 ++ 0b000000000000#12
  | .not dr sr1 => 0b1001#4 ++ regBits dr ++ regBits sr1 ++ 0b111111#6
  | .ldi dr offset9 => 0b1010#4 ++ regBits dr ++ offset9
  | .sti sr offset9 => 0b1011#4 ++ regBits sr ++ offset9
  | .jmp baseR => 0b1100#4 ++ 0b000#3 ++ regBits baseR ++ 0b000000#6
  | .reserved => 0b1101#4 ++ 0b000000000000#12
  | .lea dr offset9 => 0b1110#4 ++ regBits dr ++ offset9
  | .trapGetc => 0b1111#4 ++ 0b0000#4 ++ 0x20#8
  | .trapOut => 0b1111#4 ++ 0b0000#4 ++ 0x21#8
  | .trapPuts => 0b1111#4 ++ 0b0000#4 ++ 0x22#8
  | .trapIn => 0b1111#4 ++ 0b0000#4 ++ 0x23#8
  | .trapPutsp => 0b1111#4 ++ 0b0000#4 ++ 0x24#8
  | .trapHalt => 0b1111#4 ++ 0b0000#4 ++ 0x25#8
  | .trapOther trapvect => 0b1111#4 ++ 0b0000#4 ++ trapvect

end Sys2Proof
end

