-- ==== Sys2Proof/Config.lean ====
section
/-! DEFINITION. What this hardware fixes (R5, 00_scope.md). The spec leaves no register value and no result open, so there is no free value here: all that is open is the host's, and stands in `State` as data. -/

namespace Sys2Proof.Config

/-- `RESET_PC`, the address of the first instruction (R5, R35, R49). -/
def resetPc : Word := 0x3000

/-- `MEMSIZE`, the number of memory words (R5, R33). -/
def memSize : Nat := 65536

end Sys2Proof.Config
end

