-- ==== Sys2Proof/Machine/State.lean ====
section
/-! DEFINITION. The state of the machine (10_state.md) as plain data, the reasons it can stop, and the state after reset (R35, R170). -/

namespace Sys2Proof.Machine

/-- The condition register: exactly one of N, Z, P at all times (R25; log 17). -/
inductive Cond where
  /-- Negative, mask 0b100. -/
  | n
  /-- Zero, mask 0b010. -/
  | z
  /-- Positive, mask 0b001. -/
  | p
  deriving DecidableEq, Repr

/-- The named faults that can arise while the core runs (R31, R145). `raise` records one in the fault
status, with every effect made before it kept, and the core takes no further step (R146): the step that
raises it answers a next state, so no step of this model answers `Host.Outcome.fault` (log 7). -/
inductive Fault where
  /-- Raised by `TRAP` with a vector outside 0x20 to 0x25; the offending vector (R134). Safe: where the
  chip takes the no-op the source allows, the model has stopped (log 15). -/
  | invalidTrapvect (vector : BitVec 8)
  /-- Raised where the host answers a port operation with a failure: by a `MemRead` of 0xFE00 and by the
  trap routines (R148). Safe: it stops exactly where the host's answer says so (log 4). -/
  | hostIOError
  /-- In the source's taxonomy and raised by nothing (R147; log 18). Safe. -/
  | invalidOpcode
  deriving DecidableEq, Repr

/-- Why the model gives an instruction no meaning. -/
inductive Refusal where
  /-- Raised by an arm of `exec` whose instruction has no meaning yet, by its mnemonic; no arm of this
  model does. Safe. -/
  | notModelled (mnemonic : String)
  deriving DecidableEq, Repr

/-- A trap routine that is not done: its `KbdRead` waits for a character (R86; log 5), or its scan
never ends (R130 d; log 8). -/
inductive Hold where
  /-- `GETC` waits (R128). -/
  | getc
  /-- `IN` waits, its prompt written (R131). -/
  | inChar
  /-- `PUTS` has still to read the word at `a` (R130). -/
  | puts (a : Word)
  /-- `PUTSP` has still to read the word at `a` (R132). -/
  | putsp (a : Word)
  deriving DecidableEq, Repr

/-- One answer of the host to a keyboard operation (R9, R148; log 2). -/
inductive KbdAnswer where
  /-- At this poll no key is ready. -/
  | notReady
  /-- A key is ready; its character. -/
  | key (c : Byte)
  /-- The operation fails. -/
  | fails
  deriving DecidableEq, Repr

/-- One answer of the host to a console write (R148; log 4). -/
inductive ConAnswer where
  /-- The byte is taken. -/
  | accepts
  /-- The operation fails. -/
  | fails
  deriving DecidableEq, Repr

/-- The cells of memory that do not hold the reset word, as (address, word), addresses rising (log 1). -/
abbrev Memory := List (Nat × Word)

structure State where
  /-- R0 to R7 (R20). -/
  regs : Vector Word 8
  /-- The program counter (R23). -/
  pc : Word
  /-- The condition register (R25). -/
  cond : Cond
  /-- The memory, `KBSR` and `KBDR` among its cells (R33, R28, R29). -/
  mem : Memory
  /-- The running flag (R30). -/
  run : Bool
  /-- The fault status (R31). -/
  fault : Option Fault
  /-- The trap routine that is not done, if any (R86). -/
  hold : Option Hold
  /-- The console output stream, oldest byte first (R10, R34). -/
  console : List Byte
  /-- The keyboard input: the host's answers still to come (R9, R34). -/
  kbd : List KbdAnswer
  /-- The keyboard input after those answers: no key ever again, or this key ready at every operation (log 2). -/
  kbdThen : Option Byte
  /-- The host's answers still to come to console writes; after the last every write is taken (R148). -/
  conPort : List ConAnswer
  deriving DecidableEq, Repr

/-- The state after reset and before the image load (R35, R170). `kbd`, `kbdThen` and `conPort` are the host's and
not reset by the core: no key, and every write taken, is the model's choice (log 2, log 4). -/
def State.reset : State where
  regs := Vector.replicate 8 0x0000
  pc := Config.resetPc
  cond := .z
  mem := []
  run := true
  fault := none
  hold := none
  console := []
  kbd := []
  kbdThen := none
  conPort := []

end Sys2Proof.Machine
end

