-- ==== Sys2Proof/Machine/Flags.lean ====
section
/-! DEFINITION. The condition register: its masks and `setcc` (R25, R26). It is the only flag of this hardware: no carry, no overflow (R13). -/

namespace Sys2Proof.Machine

/-- The one-hot mask of a condition, in the bit places of the `BR` mask (R25, R61). -/
def Cond.mask : Cond → BitVec 3
  | .n => 0b100
  | .z => 0b010
  | .p => 0b001

/-- The condition of a word, the tests in the order of R26. -/
def condOf (v : Word) : Cond :=
  if v.getLsbD 15 then .n else if v = 0 then .z else .p

/-- `setcc(v)` (R26). -/
def State.setCc (s : State) (v : Word) : State := { s with cond := condOf v }

/-- Whether a `BR` with this mask is taken (R100). -/
def branchTaken (mask : BitVec 3) (c : Cond) : Bool := mask &&& c.mask != 0

end Sys2Proof.Machine
end

