-- ==== Sys2Proof/Machine/Memory.lean ====
section
/-! DEFINITION. The memory cells: reading and writing one word without any side effect (`mem[a]` of R16), over a list kept in one canonical form (R33, R40, R41; log 1). -/

namespace Sys2Proof.Machine

/-- What an address no cell lists reads as: the reset content of memory (R35). -/
def Memory.unlisted : Word := 0x0000

/-- The word at an address. -/
def Memory.read : Memory → Nat → Word
  | [], _ => Memory.unlisted
  | (b, w) :: m, a => if b = a then w else Memory.read m a

/-- Take an address out of the list. -/
def Memory.erase (m : Memory) (a : Nat) : Memory := m.filter fun c => c.1 != a

/-- Put a cell in its place in the order of addresses. -/
def Memory.insert : Memory → Nat → Word → Memory
  | [], a, v => [(a, v)]
  | (b, w) :: m, a, v => if a < b then (a, v) :: (b, w) :: m else (b, w) :: Memory.insert m a v

/-- The memory with a word stored at an address. Storing the unlisted word takes the cell out. -/
def Memory.write (m : Memory) (a : Nat) (v : Word) : Memory :=
  if v = Memory.unlisted then Memory.erase m a else Memory.insert (Memory.erase m a) a v

/-- The canonical form: addresses strictly rising and inside the address space, no cell that holds what
an unlisted address reads as. -/
abbrev Memory.wf (m : Memory) : Prop :=
  m.Pairwise (fun c d => c.1 < d.1) ∧ ∀ c ∈ m, c.1 < Config.memSize ∧ c.2 ≠ Memory.unlisted

end Sys2Proof.Machine
end

