-- ==== Sys2Proof/Machine/Ops.lean ====
section
/-! DEFINITION. The primitives of the spec's pseudocode (R16): registers, `MemRead` and `MemWrite`, the keyboard and console ports, `raise`, the trap entry, the string scan of `PUTS` and `PUTSP`, and the test for a stopped core. -/

namespace Sys2Proof.Machine

/-- The outcome of one instruction of this machine. -/
abbrev Out := Host.Outcome State Fault Refusal

/-- What a primitive does to a step: it goes on with a value and a state, or the step ends there, with a
fault raised (R146) or a read waiting (R86). -/
inductive Res (α : Type) where
  | done (a : α) (s : State)
  | ended (s : State)
  deriving DecidableEq, Repr

/-- Go on with another primitive, unless the step has ended. -/
def Res.bind {α β : Type} (r : Res α) (k : α → State → Res β) : Res β :=
  match r with
  | .done a s => k a s
  | .ended s => .ended s

/-- Go on with the rest of the step, unless it has ended. -/
def Res.out {α : Type} (r : Res α) (k : α → State → Out) : Out :=
  match r with
  | .done a s => k a s
  | .ended s => .next s

/-! ### Registers (R20, R23) -/

/-- `x[i]`. -/
def State.reg (s : State) (r : Reg) : Word := s.regs[r.val]'r.isLt

/-- `x[i] <- v`; `cond` is not touched (R16). -/
def State.setReg (s : State) (r : Reg) (v : Word) : State := { s with regs := s.regs.set r.val v r.isLt }

/-- `pc <- target`. -/
def State.setPc (s : State) (v : Word) : State := { s with pc := v }

/-- `x[DR] <- v; setcc(v)`: the result of an instruction that sets `cond` (R27). -/
def State.setResult (s : State) (r : Reg) (v : Word) : State := (s.setReg r v).setCc v

/-! ### Faults and stopping -/

/-- `raise`: the fault status is set and everything done before is kept; `run` is not cleared (R146). -/
def State.raise (s : State) (f : Fault) : State := { s with fault := some f }

/-- The core takes no further step when `run = 0` or `fault` is set (R11, R178). -/
def State.stopped (s : State) : Bool := !s.run || s.fault.isSome

/-! ### Ports (R9, R10, R148) -/

/-- The host's next answer to a keyboard operation, taken from its input. -/
def nextAnswer (s : State) : KbdAnswer × State :=
  match s.kbd, s.kbdThen with
  | a :: k, _ => (a, { s with kbd := k })
  | [], some c => (.key c, s)
  | [], none => (.notReady, s)

/-- `KbdPoll()`: it takes the host's next answer and never waits; a failing poll raises `HostIOError`. -/
def kbdPoll (s : State) : Res (Option Byte) :=
  match nextAnswer s with
  | (.notReady, u) => .done none u
  | (.key c, u) => .done (some c) u
  | (.fails, u) => .ended (u.raise .hostIOError)

/-- What a `KbdRead` meets in the host's answers. -/
inductive ReadAnswer where
  /-- No character and no failure is left: the read waits. -/
  | waits
  /-- The character, and the answers after it. -/
  | got (c : Byte) (rest : List KbdAnswer)
  /-- The read fails; the answers after the failure. -/
  | failed (rest : List KbdAnswer)
  deriving DecidableEq, Repr

/-- A read takes the next character: an answer "no key ready" only says that it waited (R9, R86; log 3). -/
def readAnswer (last : Option Byte) : List KbdAnswer → ReadAnswer
  | [] => match last with
    | none => .waits
    | some c => .got c []
  | .notReady :: k => readAnswer last k
  | .key c :: k => .got c k
  | .fails :: k => .failed k

/-- `KbdRead()` of the routine `h`. While the host has no character to give the routine is held, and
nothing else changes (R86). -/
def kbdRead (h : Hold) (s : State) : Res Byte :=
  match readAnswer s.kbdThen s.kbd with
  | .waits => .ended { s with hold := some h }
  | .got c k => .done c { s with kbd := k, hold := none }
  | .failed k => .ended ({ s with kbd := k, hold := none }.raise .hostIOError)

/-- `ConWrite(b)`: the byte is appended to the console stream, or the operation fails (R10, R148). -/
def conWrite (b : Byte) (s : State) : Res Unit :=
  match s.conPort with
  | [] => .done () { s with console := s.console ++ [b] }
  | .accepts :: k => .done () { s with console := s.console ++ [b], conPort := k }
  | .fails :: k => .ended ({ s with conPort := k }.raise .hostIOError)

/-- `ConWrite` of each byte in order. -/
def conWriteAll : List Byte → State → Res Unit
  | [], s => .done () s
  | b :: bs, s => (conWrite b s).bind fun _ u => conWriteAll bs u

/-! ### Memory (R44, R45) -/

/-- The address of `KBSR` (R28, R49). -/
def kbsrAddr : Word := 0xFE00

/-- The address of `KBDR` (R29, R49). -/
def kbdrAddr : Word := 0xFE02

/-- The word `KBSR` takes when a poll finds a key (R44). -/
def kbsrReady : Word := 0x8000

/-- `zext_8` of a character (R15). -/
def zext8 (c : Byte) : Word := c.setWidth 16

/-- `mem[a]`: the cell, without any side effect (R16). -/
def State.cell (s : State) (a : Word) : Word := s.mem.read a.toNat

/-- `MemWrite(addr, 1, v)`: an unconditional store (R45). -/
def memWrite (a v : Word) (s : State) : State := { s with mem := s.mem.write a.toNat v }

/-- The keyboard controller's part of a read of `KBSR` (R44): `KBSR` is written, then, if a key was
found, `KBDR`. -/
def recordPoll (answer : Option Byte) (s : State) : State :=
  match answer with
  | some c => memWrite kbdrAddr (zext8 c) (memWrite kbsrAddr kbsrReady s)
  | none => memWrite kbsrAddr 0x0000 s

/-- `MemRead(addr, 1)`: the cell; at `KBSR` the keyboard is polled first (R44). -/
def memRead (a : Word) (s : State) : Res Word :=
  if a = kbsrAddr then
    (kbdPoll s).bind fun answer u => .done ((recordPoll answer u).cell a) (recordPoll answer u)
  else .done (s.cell a) s

/-! ### The instruction cycle's fetch (R80 to R82) -/

/-- Fetch and increment: `ir <- MemRead(pc, 1); pc <- pc + 1`. A failing poll ends the step before the
increment (R152). -/
def fetch (s : State) : Res Word :=
  (memRead s.pc s).bind fun ir u => .done ir (u.setPc (u.pc + 1))

/-! ### Trap entry (R127, R153) and the string scan (R130, R132)

There is no return from a trap: the routine runs inside the instruction, `pc` already addresses the next
word, and `RTI` restores nothing (R154). -/

/-- The trap entry: `x[7] <- pc` and nothing else (R153). -/
def enterTrap (s : State) : State := s.setReg Reg.link s.pc

/-- The scan loop of `PUTS` and `PUTSP`: read a word, stop at a zero word, else write the bytes `emit`
gives it and go to the next address, modulo 2^16. The first argument bounds the number of reads; a scan
that comes to the bound is not done: the routine is held as `h` at the address it has still to read. -/
def scan (h : Word → Hold) (emit : Word → List Byte) : Nat → Word → State → Res Unit
  | 0, a, s => .ended { s with hold := some (h a) }
  | n + 1, a, s =>
    (memRead a s).bind fun w u =>
      if w = 0 then .done () u
      else (conWriteAll (emit w) u).bind fun _ v => scan h emit n (a + 1) v

/-- A bound that only a scan without end comes to, the hang of R130 (d) (log 8): every scan that ends, at a
zero word or at a failing port operation, ends before it. Each time round takes one answer at 0xFE00 and each
word written one answer of the console; when both are used up, two more times round meet every cell. -/
def scanBound (s : State) : Nat := 65536 * (s.kbd.length + 2) + s.conPort.length

/-- The scan from `a`, as many reads as it takes. -/
def scanString (h : Word → Hold) (emit : Word → List Byte) (a : Word) (s : State) : Res Unit :=
  scan h emit (scanBound s) a { s with hold := none }

/-! ### The outside world between steps -/

/-- The host supplies further keyboard answers (R7, R9). For a routine that waits in `KbdRead` nothing else lifts the hold (R86). -/
def State.supply (s : State) (answers : List KbdAnswer) : State := { s with kbd := s.kbd ++ answers }

end Sys2Proof.Machine
end

