-- ==== Sys2Proof/Machine/Operands.lean ====
section
/-! DEFINITION. Operand forms: sign extension (R14, R64), the second operand of `ADD` and `AND`, and the effective addresses of R110. -/

namespace Sys2Proof.Machine

/-- `sext_N(v)` in the words of R14: if the top bit is set, or in `0xFFFF << N` truncated to 16 bits. -/
def sext {n : Nat} (v : BitVec n) : Word :=
  if v.msb then v.setWidth 16 ||| (0xFFFF#16 <<< n) else v.setWidth 16

/-- The PC-relative address `pc + sext_9(offset9)`, `pc` already incremented (R110). -/
def State.pcRel9 (s : State) (offset9 : BitVec 9) : Word := s.pc + sext offset9

/-- The target `pc + sext_11(offset11)` of `JSR` (R103). -/
def State.pcRel11 (s : State) (offset11 : BitVec 11) : Word := s.pc + sext offset11

/-- The address `x[BaseR] + sext_6(offset6)` (R110). -/
def State.baseOff (s : State) (baseR : Reg) (offset6 : BitVec 6) : Word := s.reg baseR + sext offset6

/-- `v[7:0]`. -/
def lowByte (v : Word) : Byte := v.extractLsb' 0 8

/-- `v[15:8]`. -/
def highByte (v : Word) : Byte := v.extractLsb' 8 8

end Sys2Proof.Machine
end

