-- ==== Sys2Proof/Machine/Control.lean ====
section
/-! DEFINITION. `BR`, `JMP` (`RET`), `JSR`, `JSRR` (42_control.md). `pc` is the incremented one. -/

namespace Sys2Proof.Machine

/-- `BR` (R100). -/
def execBr (mask : BitVec 3) (offset9 : BitVec 9) (s : State) : Out :=
  .next (if branchTaken mask s.cond then s.setPc (s.pcRel9 offset9) else s)

/-- `JMP`, and `RET` with R7 (R101, R102). -/
def execJmp (baseR : Reg) (s : State) : Out := .next (s.setPc (s.reg baseR))

/-- `JSR`: the linkage, then the target from the same `pc` (R103). -/
def execJsr (offset11 : BitVec 11) (s : State) : Out :=
  .next ((s.setReg Reg.link s.pc).setPc (s.pcRel11 offset11))

/-- `JSRR`: the linkage is written before the base register is read (R104). -/
def execJsrr (baseR : Reg) (s : State) : Out :=
  let linked := s.setReg Reg.link s.pc
  .next (linked.setPc (linked.reg baseR))

end Sys2Proof.Machine
end

