-- ==== Sys2Proof/Machine/LoadStore.lean ====
section
/-! DEFINITION. `LD`, `LDI`, `LDR`, `LEA`, `ST`, `STI`, `STR` (43_load_store.md), the accesses in the order of R48. -/

namespace Sys2Proof.Machine

/-- `LD` (R111). -/
def execLd (dr : Reg) (offset9 : BitVec 9) (s : State) : Out :=
  (memRead (s.pcRel9 offset9) s).out fun v u => .next (u.setResult dr v)

/-- `LDI`: the pointer, then the data (R112). -/
def execLdi (dr : Reg) (offset9 : BitVec 9) (s : State) : Out :=
  ((memRead (s.pcRel9 offset9) s).bind memRead).out fun v u => .next (u.setResult dr v)

/-- `LDR` (R113). -/
def execLdr (dr baseR : Reg) (offset6 : BitVec 6) (s : State) : Out :=
  (memRead (s.baseOff baseR offset6) s).out fun v u => .next (u.setResult dr v)

/-- `LEA`: the address is the data, and `cond` is set from it (R117). -/
def execLea (dr : Reg) (offset9 : BitVec 9) (s : State) : Out := .next (s.setResult dr (s.pcRel9 offset9))

/-- `ST` (R118). -/
def execSt (sr : Reg) (offset9 : BitVec 9) (s : State) : Out :=
  .next (memWrite (s.pcRel9 offset9) (s.reg sr) s)

/-- `STI`: the pointer is read, then the word stored (R119). -/
def execSti (sr : Reg) (offset9 : BitVec 9) (s : State) : Out :=
  (memRead (s.pcRel9 offset9) s).out fun p u => .next (memWrite p (u.reg sr) u)

/-- `STR` (R120). -/
def execStr (sr baseR : Reg) (offset6 : BitVec 6) (s : State) : Out :=
  .next (memWrite (s.baseOff baseR offset6) (s.reg sr) s)

end Sys2Proof.Machine
end

