-- ==== Sys2Proof/Machine/Operate.lean ====
section
/-! DEFINITION. `ADD`, `AND`, `NOT` (41_operate.md). Sources are read before the destination is written. -/

namespace Sys2Proof.Machine

/-- `ADD DR, SR1, SR2` (R90). -/
def execAddReg (dr sr1 sr2 : Reg) (s : State) : Out := .next (s.setResult dr (s.reg sr1 + s.reg sr2))

/-- `ADD DR, SR1, #imm5` (R90). -/
def execAddImm (dr sr1 : Reg) (imm5 : BitVec 5) (s : State) : Out :=
  .next (s.setResult dr (s.reg sr1 + sext imm5))

/-- `AND DR, SR1, SR2` (R91). -/
def execAndReg (dr sr1 sr2 : Reg) (s : State) : Out := .next (s.setResult dr (s.reg sr1 &&& s.reg sr2))

/-- `AND DR, SR1, #imm5` (R91). -/
def execAndImm (dr sr1 : Reg) (imm5 : BitVec 5) (s : State) : Out :=
  .next (s.setResult dr (s.reg sr1 &&& sext imm5))

/-- `NOT DR, SR1` (R92). -/
def execNot (dr sr1 : Reg) (s : State) : Out := .next (s.setResult dr (~~~ s.reg sr1))

end Sys2Proof.Machine
end

