-- ==== Sys2Proof/Machine/System.lean ====
section
/-! DEFINITION. `RTI`, the reserved opcode and `TRAP` with its routines (44_trap_system.md). Every `TRAP` begins with the trap entry (R127); the routine's effects follow in the order of its pseudocode. -/

namespace Sys2Proof.Machine

/-- `RTI`: inert (R125). -/
def execRti (s : State) : Out := .next s

/-- The reserved opcode: inert (R126). -/
def execReserved (s : State) : Out := .next s

/-- `GETC` from its read on: `x[0]` is the character, and `cond` follows it (R128). -/
def getcFromRead (s : State) : Out :=
  (kbdRead .getc s).out fun c u => .next (u.setResult Reg.arg (zext8 c))

/-- `IN` from its read on: the character is echoed, then as `GETC` (R131). -/
def inFromRead (s : State) : Out :=
  (kbdRead .inChar s).out fun c u => (conWrite c u).out fun _ v => .next (v.setResult Reg.arg (zext8 c))

/-- The prompt of `IN`: "Enter a character: ", 19 bytes (R131). -/
def inPrompt : List Byte :=
  [0x45, 0x6E, 0x74, 0x65, 0x72, 0x20, 0x61, 0x20, 0x63, 0x68, 0x61, 0x72, 0x61, 0x63, 0x74, 0x65, 0x72, 0x3A, 0x20]

/-- What `HALT` writes: "HALT" and a newline (R133). -/
def haltMessage : List Byte := [0x48, 0x41, 0x4C, 0x54, 0x0A]

/-- The byte `PUTS` writes for a word: its low 8 bits (R130). -/
def putsBytes (w : Word) : List Byte := [lowByte w]

/-- The bytes `PUTSP` writes for a word: the low byte, then the high byte unless it is zero (R132). -/
def putspBytes (w : Word) : List Byte := if highByte w = 0 then [lowByte w] else [lowByte w, highByte w]

/-- `PUTS` from the word at `a` on (R130). -/
def putsFrom (a : Word) (s : State) : Out := (scanString .puts putsBytes a s).out fun _ u => .next u

/-- `PUTSP` from the word at `a` on (R132). -/
def putspFrom (a : Word) (s : State) : Out := (scanString .putsp putspBytes a s).out fun _ u => .next u

/-- A held routine goes on where it is: a read waits on, or the host's character lets it finish (R86);
a scan reads on. -/
def resume (h : Hold) (s : State) : Out :=
  match h with
  | .getc => getcFromRead s
  | .inChar => inFromRead s
  | .puts a => putsFrom a s
  | .putsp a => putspFrom a s

/-- `TRAP 0x20`, `GETC` (R128). -/
def execTrapGetc (s : State) : Out := getcFromRead (enterTrap s)

/-- `TRAP 0x21`, `OUT` (R129). -/
def execTrapOut (s : State) : Out :=
  (conWrite (lowByte ((enterTrap s).reg Reg.arg)) (enterTrap s)).out fun _ u => .next u

/-- `TRAP 0x22`, `PUTS` (R130). -/
def execTrapPuts (s : State) : Out := putsFrom ((enterTrap s).reg Reg.arg) (enterTrap s)

/-- `TRAP 0x23`, `IN` (R131). -/
def execTrapIn (s : State) : Out := (conWriteAll inPrompt (enterTrap s)).out fun _ u => inFromRead u

/-- `TRAP 0x24`, `PUTSP` (R132). -/
def execTrapPutsp (s : State) : Out := putspFrom ((enterTrap s).reg Reg.arg) (enterTrap s)

/-- `TRAP 0x25`, `HALT` (R133). -/
def execTrapHalt (s : State) : Out :=
  (conWriteAll haltMessage (enterTrap s)).out fun _ u => .next { u with run := false }

/-- `TRAP` with another vector: the linkage, then the fault (R134). -/
def execTrapOther (trapvect : BitVec 8) (s : State) : Out :=
  .next ((enterTrap s).raise (.invalidTrapvect trapvect))

end Sys2Proof.Machine
end

