-- ==== Sys2Proof/Machine/Cycle.lean ====
section
/-! DEFINITION. The instruction cycle (R80): what one step of the core does. -/

namespace Sys2Proof.Machine

/-- One step of the core. A stopped core keeps all its state (R178; log 6). A held routine goes on at its
read (R86; log 5). Otherwise: fetch, increment, decode, execute (R80). -/
def cycle (s : State) : Out :=
  if s.stopped then .next s
  else
    match s.hold with
    | some h => resume h s
    | none => (fetch s).out fun ir u => exec (decode ir) u

end Sys2Proof.Machine
end

