-- ==== Sys2Proof/Machine/Step.lean ====
section
/-! DEFINITION. The step of the machine, and placing a word where the next step fetches it. -/

namespace Sys2Proof.Machine

/-- One step of the core, one whole instruction cycle (R6, R80). -/
def step (s : State) : Host.Outcome State Fault Refusal := cycle s

/-- `s` with an instruction word stored in the cell at `pc`, where the next step fetches (R81). It stands
for the host's load of a program (log 11). At `pc = 0xFE00` no stored word is ever fetched (R81). -/
def State.withFetchWord (s : State) (nbits w : Nat) : State :=
  memWrite s.pc (BitVec.ofNat 16 (w % 2 ^ nbits)) s

end Sys2Proof.Machine
end

