-- ==== Sys2Proof/Machine/Loader.lean ====
section
/-! DEFINITION. The host's image load, the boot mechanism (R171 to R175). It runs between reset and the first step and writes memory cells only. -/

namespace Sys2Proof.Machine

/-- Why the core never starts (R145). -/
inductive LoadFault where
  /-- The file cannot be opened or read, or is shorter than two bytes (R175). Safe: there is no run. -/
  | imageUnreadable
  deriving DecidableEq, Repr

/-- The words of an image file, the first byte of each pair the high byte; an odd last byte is ignored
(R172, R175). -/
def imageWords : List Byte → List Word
  | hi :: lo :: rest => (hi ++ lo) :: imageWords rest
  | _ => []

/-- The payload words stored from an address on, until the address would pass 0xFFFF (R174). -/
def loadWords : Nat → List Word → Memory → Memory
  | _, [], m => m
  | a, w :: ws, m => if a > 0xFFFF then m else loadWords (a + 1) ws (m.write a w)

/-- The load of an image file into a machine (R174, R175); `none` is a file that cannot be opened or read. -/
def loadImage (file : Option (List Byte)) (s : State) : Except LoadFault State :=
  match file.map imageWords with
  | some (origin :: payload) => .ok { s with mem := loadWords origin.toNat payload s.mem }
  | _ => .error .imageUnreadable

/-- Reset, then the image load: the state from which the core begins stepping (R171). -/
def boot (file : Option (List Byte)) : Except LoadFault State := loadImage file State.reset

end Sys2Proof.Machine
end

