-- ==== Sys2Proof/Safety.lean ====
section
/-! DEFINITION. The terms claims about this machine are stated in: when the core can begin an instruction, what the host's answers allow, what a read of memory does, what an instruction leaves as it was, and the invariant of the machine. They are written from the spec's words, not from the machine's functions. -/

namespace Sys2Proof.Safety

open Sys2Proof.Machine

/-- The core is ready to begin an instruction: running, no fault, no routine held (R80, R86). -/
def Ready (s : State) : Prop := s.run = true ∧ s.fault = none ∧ s.hold = none

/-- A run is safe so far: no fault was raised (R146). -/
def Safe (s : State) : Prop := s.fault = none

/-- The condition a word sets, by its value as a signed number (R26, R93 c). -/
def CondIs (c : Cond) (v : Word) : Prop :=
  match c with
  | .n => v.toInt < 0
  | .z => v.toInt = 0
  | .p => 0 < v.toInt

/-! ### The host's answers (R9, R148) -/

/-- The host's next answer to a keyboard operation is the key `c`; then come the answers `k`. -/
def KeyNext (s : State) (c : Byte) (k : List KbdAnswer) : Prop :=
  s.kbd = .key c :: k ∨ (s.kbd = [] ∧ s.kbdThen = some c ∧ k = [])

/-- The host's next answer to a keyboard operation is that no key is ready; then come the answers `k`. -/
def NoKeyNext (s : State) (k : List KbdAnswer) : Prop :=
  s.kbd = .notReady :: k ∨ (s.kbd = [] ∧ s.kbdThen = none ∧ k = [])

/-- The host's next answer to a keyboard operation is a failure; then come the answers `k`. -/
def KbdFailsNext (s : State) (k : List KbdAnswer) : Prop := s.kbd = .fails :: k

/-- A blocking read gets the character `c`, perhaps after waiting; then come the answers `k` (R86). -/
def ReadGets (s : State) (c : Byte) (k : List KbdAnswer) : Prop :=
  ∃ m, s.kbd = List.replicate m .notReady ++ .key c :: k ∨
    (s.kbd = List.replicate m .notReady ∧ s.kbdThen = some c ∧ k = [])

/-- A blocking read has no character and no failure to meet: it waits (R86). -/
def ReadWaits (s : State) : Prop := (∃ m, s.kbd = List.replicate m .notReady) ∧ s.kbdThen = none

/-- A blocking read meets a failure, perhaps after waiting; then come the answers `k`. -/
def ReadFailsNext (s : State) (k : List KbdAnswer) : Prop :=
  ∃ m, s.kbd = List.replicate m .notReady ++ .fails :: k

/-- The next `n` console writes are accepted. -/
def ConTakes (s : State) (n : Nat) : Prop := ∀ x ∈ s.conPort.take n, x = .accepts

/-- The next `n` console writes are accepted and the one after them fails. -/
def ConFailsAt (s : State) (n : Nat) : Prop := ConTakes s n ∧ s.conPort[n]? = some .fails

/-- The state after the bytes `bs` are on the console, all accepted (R10). -/
def written (s : State) (bs : List Byte) : State :=
  { s with console := s.console ++ bs, conPort := s.conPort.drop bs.length }

/-- The state after the bytes `bs` are on the console and the write after them has failed (R146, R148). -/
def writeFailed (s : State) (bs : List Byte) : State :=
  { s with console := s.console ++ bs, conPort := s.conPort.drop (bs.length + 1), fault := some .hostIOError }

/-! ### Reads of memory (R44) -/

/-- Reading the word at `a` in state `s` gives `v` and leaves state `u`: anywhere but at 0xFE00 the cell,
nothing changed; at 0xFE00 the ready word with the key in 0xFE02, or zero. -/
inductive ReadOf (s : State) (a : Word) : Word → State → Prop where
  | plain (h : a ≠ 0xFE00) : ReadOf s a (s.cell a) s
  | key (h : a = 0xFE00) {c : Byte} {k : List KbdAnswer} (hk : KeyNext s c k) :
      ReadOf s a 0x8000 (memWrite 0xFE02 (c.setWidth 16) (memWrite 0xFE00 0x8000 { s with kbd := k }))
  | noKey (h : a = 0xFE00) {k : List KbdAnswer} (hk : NoKeyNext s k) :
      ReadOf s a 0x0000 (memWrite 0xFE00 0x0000 { s with kbd := k })

/-- Reading the word at `a` in state `s` fails and leaves state `u`: only the poll of 0xFE00 can (R148). -/
inductive ReadFails (s : State) (a : Word) : State → Prop where
  | poll (h : a = 0xFE00) {k : List KbdAnswer} (hk : KbdFailsNext s k) :
      ReadFails s a { s with kbd := k, fault := some .hostIOError }

/-! ### Frames -/

/-- The outside streams are as they were. -/
structure SamePorts (s t : State) : Prop where
  console : t.console = s.console
  kbd : t.kbd = s.kbd
  kbdThen : t.kbdThen = s.kbdThen
  conPort : t.conPort = s.conPort

/-- The running flag, the fault status and the hold are as they were. -/
structure SameControl (s t : State) : Prop where
  run : t.run = s.run
  fault : t.fault = s.fault
  hold : t.hold = s.hold

/-- Every word of memory reads as it did. -/
def SameMemory (s t : State) : Prop := ∀ b, t.cell b = s.cell b

/-- The instruction's whole effect is the result `v` in register `dr`, with `cond` set from it. -/
structure WritesResult (s t : State) (dr : Reg) (v : Word) : Prop where
  regs : ∀ r, t.reg r = if r = dr then v else s.reg r
  cond : CondIs t.cond v
  pc : t.pc = s.pc
  memory : SameMemory s t
  control : SameControl s t
  ports : SamePorts s t

/-- The instruction's whole effect is to go to `target`; in particular no register is written. -/
structure GoesTo (s t : State) (target : Word) : Prop where
  pc : t.pc = target
  regs : ∀ r, t.reg r = s.reg r
  cond : t.cond = s.cond
  memory : SameMemory s t
  control : SameControl s t
  ports : SamePorts s t

/-- The instruction's whole effect is to put the old `pc` into R7 and go to `target`. -/
structure CallsTo (s t : State) (target : Word) : Prop where
  pc : t.pc = target
  regs : ∀ r, t.reg r = if r = 7 then s.pc else s.reg r
  cond : t.cond = s.cond
  memory : SameMemory s t
  control : SameControl s t
  ports : SamePorts s t

/-- The instruction's whole effect is the word `v` in the cell at `a`. -/
structure StoresWord (s t : State) (a v : Word) : Prop where
  memory : ∀ b, t.cell b = if b = a then v else s.cell b
  regs : ∀ r, t.reg r = s.reg r
  pc : t.pc = s.pc
  cond : t.cond = s.cond
  control : SameControl s t
  ports : SamePorts s t

/-- The state after a trap entry: R7 holds `pc` (R153). -/
def linked (s : State) : State := s.setReg 7 s.pc

/-- What every trap routine that reads no memory leaves as it was, and its linkage (R127, R135): all but R0,
`cond`, `run`, the fault status, the hold and the ports, which each routine's statement gives. -/
structure TrapFrame (s t : State) : Prop where
  link : t.reg 7 = s.pc
  regs : ∀ r, r ≠ 7 → r ≠ 0 → t.reg r = s.reg r
  pc : t.pc = s.pc
  memory : SameMemory s t
  kbdThen : t.kbdThen = s.kbdThen

/-! ### The string scan (R130, R132), as a relation -/

/-- The scan from address `a` in state `s`, writing the bytes `emit w` for each word `w`, ends in state
`t`: at a zero word, or where the host fails a poll or a console write. -/
inductive ScanRun (emit : Word → List Byte) : Word → State → State → Prop where
  | stop {a : Word} {s u : State} (h : ReadOf s a 0x0000 u) : ScanRun emit a s u
  | more {a w : Word} {s u t : State} (h : ReadOf s a w u) (hw : w ≠ 0x0000)
      (hc : ConTakes u (emit w).length) (ht : ScanRun emit (a + 1) (written u (emit w)) t) :
      ScanRun emit a s t
  | readFails {a : Word} {s u : State} (h : ReadFails s a u) : ScanRun emit a s u
  | writeFails {a w : Word} {s u : State} {n : Nat} (h : ReadOf s a w u) (hw : w ≠ 0x0000)
      (hn : n < (emit w).length) (hc : ConFailsAt u n) :
      ScanRun emit a s (writeFailed u ((emit w).take n))

/-- The scan from address `a` in state `s` goes on for `n` words, none of them zero and each written, and
leaves state `t`; it has not ended. -/
inductive ScanGoes (emit : Word → List Byte) : Nat → Word → State → State → Prop where
  | zero (a : Word) (s : State) : ScanGoes emit 0 a s s
  | more {n : Nat} {a w : Word} {s u t : State} (h : ReadOf s a w u) (hw : w ≠ 0x0000)
      (hc : ConTakes u (emit w).length) (ht : ScanGoes emit n (a + 1) (written u (emit w)) t) :
      ScanGoes emit (n + 1) a s t

/-- `PUTS` writes the low 8 bits of a word (R130 b). -/
def putsText (w : Word) : List Byte := [BitVec.ofNat 8 (w.toNat % 256)]

/-- `PUTSP` writes the low 8 bits, then the high 8 bits unless they are zero (R132). -/
def putspText (w : Word) : List Byte :=
  BitVec.ofNat 8 (w.toNat % 256) :: if w.toNat / 256 = 0 then [] else [BitVec.ofNat 8 (w.toNat / 256)]

/-- The prompt of `IN`, "Enter a character: " with its trailing space, as R131 lists the bytes. -/
def promptText : List Byte :=
  [0x45, 0x6E, 0x74, 0x65, 0x72, 0x20, 0x61, 0x20, 0x63, 0x68, 0x61, 0x72, 0x61, 0x63, 0x74, 0x65, 0x72, 0x3A, 0x20]

/-- "HALT" and a newline, as R133 lists the bytes. -/
def haltText : List Byte := [0x48, 0x41, 0x4C, 0x54, 0x0A]

/-- The two bytes of a word in an image file, the high byte first (R172). -/
def wordBytes (w : Word) : List Byte := [BitVec.ofNat 8 (w.toNat / 256), BitVec.ofNat 8 (w.toNat % 256)]

/-! ### Runs -/

/-- `n` steps from `s` lead to `t`. -/
inductive Steps : Nat → State → State → Prop where
  | zero (s : State) : Steps 0 s s
  | more {n : Nat} {s u t : State} (h : step s = .next u) (ht : Steps n u t) : Steps (n + 1) s t

/-! ### Classes of instructions (R22, R24, R27, R48) -/

/-- The six trap routines and the invalid vector. -/
def isTrap : Instr → Bool
  | .trapGetc | .trapOut | .trapPuts | .trapIn | .trapPutsp | .trapHalt | .trapOther _ => true
  | .br _ _ | .addReg _ _ _ | .addImm _ _ _ | .ld _ _ | .st _ _ | .jsr _ | .jsrr _ | .andReg _ _ _
  | .andImm _ _ _ | .ldr _ _ _ | .str _ _ _ | .rti | .not _ _ | .ldi _ _ | .sti _ _ | .jmp _ | .reserved
  | .lea _ _ => false

/-- The registers an instruction may write (R22). -/
def writesReg : Instr → Reg → Bool
  | .addReg dr _ _, r | .addImm dr _ _, r | .andReg dr _ _, r | .andImm dr _ _, r | .not dr _, r
  | .ld dr _, r | .ldi dr _, r | .ldr dr _ _, r | .lea dr _, r => r == dr
  | .jsr _, r | .jsrr _, r => r == 7
  | .trapGetc, r | .trapIn, r => r == 7 || r == 0
  | .trapOut, r | .trapPuts, r | .trapPutsp, r | .trapHalt, r | .trapOther _, r => r == 7
  | .br _ _, _ | .st _ _, _ | .sti _ _, _ | .str _ _ _, _ | .jmp _, _ | .rti, _ | .reserved, _ => false

/-- The destination register of an instruction that sets `cond` (R27); none: it does not set `cond`. -/
def setsCondFrom : Instr → Option Reg
  | .addReg dr _ _ | .addImm dr _ _ | .andReg dr _ _ | .andImm dr _ _ | .not dr _
  | .ld dr _ | .ldi dr _ | .ldr dr _ _ | .lea dr _ => some dr
  | .trapGetc | .trapIn => some 0
  | .br _ _ | .st _ _ | .jsr _ | .jsrr _ | .str _ _ _ | .rti | .sti _ _ | .jmp _ | .reserved | .trapOut
  | .trapPuts | .trapPutsp | .trapHalt | .trapOther _ => none

/-- The instructions that may write `pc` after its increment (R24). -/
def writesPc : Instr → Bool
  | .br _ _ | .jmp _ | .jsr _ | .jsrr _ => true
  | .addReg _ _ _ | .addImm _ _ _ | .ld _ _ | .st _ _ | .andReg _ _ _ | .andImm _ _ _ | .ldr _ _ _
  | .str _ _ _ | .rti | .not _ _ | .ldi _ _ | .sti _ _ | .reserved | .lea _ _ | .trapGetc | .trapOut
  | .trapPuts | .trapIn | .trapPutsp | .trapHalt | .trapOther _ => false

/-- The instructions that store a word (R48). -/
def storesWord : Instr → Bool
  | .st _ _ | .sti _ _ | .str _ _ _ => true
  | .br _ _ | .addReg _ _ _ | .addImm _ _ _ | .ld _ _ | .jsr _ | .jsrr _ | .andReg _ _ _ | .andImm _ _ _
  | .ldr _ _ _ | .rti | .not _ _ | .ldi _ _ | .jmp _ | .reserved | .lea _ _ | .trapGetc | .trapOut
  | .trapPuts | .trapIn | .trapPutsp | .trapHalt | .trapOther _ => false

/-- The instructions that read memory after the fetch, and so may poll the keyboard at 0xFE00 (R48). -/
def readsMemory : Instr → Bool
  | .ld _ _ | .ldi _ _ | .ldr _ _ _ | .sti _ _ | .trapPuts | .trapPutsp => true
  | .br _ _ | .addReg _ _ _ | .addImm _ _ _ | .st _ _ | .jsr _ | .jsrr _ | .andReg _ _ _ | .andImm _ _ _
  | .str _ _ _ | .rti | .not _ _ | .jmp _ | .reserved | .lea _ _ | .trapGetc | .trapOut | .trapIn
  | .trapHalt | .trapOther _ => false

/-- The instructions that write to the console (R159). -/
def writesConsole : Instr → Bool
  | .trapOut | .trapPuts | .trapIn | .trapPutsp | .trapHalt => true
  | .br _ _ | .addReg _ _ _ | .addImm _ _ _ | .ld _ _ | .st _ _ | .jsr _ | .jsrr _ | .andReg _ _ _
  | .andImm _ _ _ | .ldr _ _ _ | .str _ _ _ | .rti | .not _ _ | .ldi _ _ | .sti _ _ | .jmp _ | .reserved
  | .lea _ _ | .trapGetc | .trapOther _ => false

/-! ### The invariant of the machine -/

/-- What holds at reset and after every step. -/
structure Inv (s : State) : Prop where
  /-- Memory has its canonical form. -/
  memory : s.mem.wf
  /-- A held routine has its linkage in R7, and the core runs without fault (R86, R127). -/
  held : s.hold ≠ none → s.reg 7 = s.pc ∧ s.run = true ∧ s.fault = none
  /-- A halted core has not faulted, holds its linkage, and its console ends with the message of `HALT` (R177, R178). -/
  halted : s.run = false → s.fault = none ∧ s.reg 7 = s.pc ∧ haltText <:+ s.console
  /-- A core stopped on a trap vector holds its linkage, still has `run = 1`, and the vector selects no routine (R134). -/
  badVector : ∀ v, s.fault = some (.invalidTrapvect v) → s.reg 7 = s.pc ∧ s.run = true ∧ (v < 0x20 ∨ 0x25 < v)
  /-- Nothing raises `InvalidOpcode` (R147). -/
  noBadOpcode : s.fault ≠ some .invalidOpcode

end Sys2Proof.Safety
end

