-- ==== Sys2Proof/Certificates/Slice0/Obligations.lean ====
section
/-! DEFINITION. The statements for the provers, from the numbered rules of spec/. In every statement about `exec` the state is the one after the fetch and the increment, as in the rules; `sext` is what `SignExtension` says. The statement that an instruction completes also says which words decode to it: its layout of R63, whatever the bits no field names. -/

open Sys2Proof Sys2Proof.Machine Sys2Proof.Safety

/-! ### Values and state -/

/-- R14: `sext_N` by its formula and as a signed number, for N in 5, 6, 9, 11. -/
def Obligations.SignExtension : Prop :=
  ∀ n ∈ [5, 6, 9, 11], ∀ v : BitVec n,
    (sext v).toNat = (if v.toNat < 2 ^ (n - 1) then v.toNat else v.toNat ||| (0xFFFF <<< n) % 65536) ∧
    (sext v).toInt = (if v.toNat < 2 ^ (n - 1) then (v.toNat : Int) else (v.toNat : Int) - 2 ^ n)

/-- R26: the three cases of `setcc`, with their masks; nothing else changes. -/
def Obligations.SetccCases : Prop :=
  ∀ (s : State) (v : Word),
    ((s.setCc v).cond.mask = 0b100 ↔ v.getLsbD 15 = true) ∧
    ((s.setCc v).cond.mask = 0b010 ↔ v = 0) ∧
    ((s.setCc v).cond.mask = 0b001 ↔ v.getLsbD 15 = false ∧ v ≠ 0) ∧
    (∀ r, (s.setCc v).reg r = s.reg r) ∧ (s.setCc v).pc = s.pc ∧ SameMemory s (s.setCc v) ∧
    SameControl s (s.setCc v) ∧ SamePorts s (s.setCc v)

/-- R170: every piece of state after reset (that there is this one reset is the spec's decision D17). What the
host's streams hold is the model's choice and not stated. -/
def Obligations.ResetState : Prop :=
  (∀ r, State.reset.reg r = 0x0000) ∧ State.reset.pc = 0x3000 ∧ State.reset.cond = .z ∧
  (∀ a, State.reset.cell a = 0x0000) ∧ State.reset.run = true ∧ State.reset.fault = none ∧
  State.reset.console = []

/-- R44: `MemRead` at every address but 0xFE00, and at 0xFE00 with a key and without (that a poll takes the key
is the spec's decision D4). -/
def Obligations.MemReadRule : Prop :=
  ∀ (s : State) (a : Word),
    (a ≠ 0xFE00 → memRead a s = .done (s.cell a) s) ∧
    (∀ c k, a = 0xFE00 → KeyNext s c k → ∃ u, memRead a s = .done 0x8000 u ∧
      (∀ b, u.cell b = if b = 0xFE00 then 0x8000 else if b = 0xFE02 then c.setWidth 16 else s.cell b) ∧
      u.kbd = k ∧ (∀ r, u.reg r = s.reg r) ∧ u.pc = s.pc ∧ u.cond = s.cond ∧ SameControl s u ∧
      u.console = s.console ∧ u.conPort = s.conPort ∧ u.kbdThen = s.kbdThen) ∧
    (∀ k, a = 0xFE00 → NoKeyNext s k → ∃ u, memRead a s = .done 0x0000 u ∧
      (∀ b, u.cell b = if b = 0xFE00 then 0x0000 else s.cell b) ∧
      u.kbd = k ∧ (∀ r, u.reg r = s.reg r) ∧ u.pc = s.pc ∧ u.cond = s.cond ∧ SameControl s u ∧
      u.console = s.console ∧ u.conPort = s.conPort ∧ u.kbdThen = s.kbdThen)

/-- R45: `MemWrite` changes the one cell, at the keyboard's addresses too, and nothing else. -/
def Obligations.MemWriteRule : Prop :=
  ∀ (s : State) (a v : Word), StoresWord s (memWrite a v s) a v

/-- R51 (a): after any stores, a read of an address other than 0xFE00 gives the latest word stored there,
or what the cell held before them. -/
def Obligations.ReadSeesLatestStore : Prop :=
  ∀ (s : State) (stores : List (Word × Word)) (a : Word), a ≠ 0xFE00 →
    ∃ u, memRead a (stores.foldl (fun u st => memWrite st.1 st.2 u) s) =
      .done (((stores.reverse.find? fun st => st.1 == a).map Prod.snd).getD (s.cell a)) u

/-- R46: two reads of `KBSR` in a row that find two keys leave the second key in `KBDR`; the first is lost
(that a poll takes the key is the spec's decision D4). -/
def Obligations.KbsrReadIsDestructive : Prop :=
  ∀ (s : State) (c d : Byte) (k : List KbdAnswer), s.kbd = .key c :: .key d :: k →
    ∃ u t, memRead 0xFE00 s = .done 0x8000 u ∧ memRead 0xFE00 u = .done 0x8000 t ∧
      u.cell 0xFE02 = c.setWidth 16 ∧ t.cell 0xFE02 = d.setWidth 16 ∧ t.kbd = k

/-! ### Operate -/

/-- R90: both forms of `ADD` complete, for every register and immediate. -/
def Obligations.AddCompletes : Prop :=
  ∀ (s : State) (dr sr1 : Reg),
    (∀ sr2, (∀ x : BitVec 2,
        decode (0b0001#4 ++ regBits dr ++ regBits sr1 ++ 0b0#1 ++ x ++ regBits sr2) = .addReg dr sr1 sr2) ∧
      ∃ t, exec (.addReg dr sr1 sr2) s = .next t ∧
        WritesResult s t dr (BitVec.ofNat 16 (((s.reg sr1).toNat + (s.reg sr2).toNat) % 65536))) ∧
    (∀ imm5, decode (0b0001#4 ++ regBits dr ++ regBits sr1 ++ 0b1#1 ++ imm5) = .addImm dr sr1 imm5 ∧
      ∃ t, exec (.addImm dr sr1 imm5) s = .next t ∧
        WritesResult s t dr (BitVec.ofNat 16 (((s.reg sr1).toNat + (sext imm5).toNat) % 65536)))

/-- R91: both forms of `AND` complete, for every register and immediate. -/
def Obligations.AndCompletes : Prop :=
  ∀ (s : State) (dr sr1 : Reg),
    (∀ sr2, (∀ x : BitVec 2,
        decode (0b0101#4 ++ regBits dr ++ regBits sr1 ++ 0b0#1 ++ x ++ regBits sr2) = .andReg dr sr1 sr2) ∧
      ∃ t, exec (.andReg dr sr1 sr2) s = .next t ∧
        WritesResult s t dr (BitVec.ofNat 16 ((s.reg sr1).toNat &&& (s.reg sr2).toNat))) ∧
    (∀ imm5, decode (0b0101#4 ++ regBits dr ++ regBits sr1 ++ 0b1#1 ++ imm5) = .andImm dr sr1 imm5 ∧
      ∃ t, exec (.andImm dr sr1 imm5) s = .next t ∧
        WritesResult s t dr (BitVec.ofNat 16 ((s.reg sr1).toNat &&& (sext imm5).toNat)))

/-- R92: `NOT` completes: the result is 0xFFFF minus the source. -/
def Obligations.NotCompletes : Prop :=
  ∀ (s : State) (dr sr1 : Reg),
    (∀ x : BitVec 6, decode (0b1001#4 ++ regBits dr ++ regBits sr1 ++ x) = .not dr sr1) ∧
    ∃ t, exec (.not dr sr1) s = .next t ∧
      WritesResult s t dr (BitVec.ofNat 16 (0xFFFF - (s.reg sr1).toNat))

/-! ### Control -/

/-- R100: `BR` completes; it is taken exactly when the mask bit of the current condition is 1. -/
def Obligations.BrCompletes : Prop :=
  ∀ (s : State) (mask : BitVec 3) (offset9 : BitVec 9),
    decode (0b0000#4 ++ mask ++ offset9) = .br mask offset9 ∧
    ∃ t, exec (.br mask offset9) s = .next t ∧ GoesTo s t
      (if (s.cond = .n ∧ mask.getLsbD 2 = true) ∨ (s.cond = .z ∧ mask.getLsbD 1 = true) ∨
        (s.cond = .p ∧ mask.getLsbD 0 = true) then s.pc + sext offset9 else s.pc)

/-- R101, R102: `JMP` completes at every base register, `RET` being the one with R7 and the word 0xC1C0; and
`RET` after `JSR` or `JSRR`, wherever the subroutine has gone with R7 kept, returns to the word after the call. -/
def Obligations.JmpAndRetComplete : Prop :=
  (∀ (s : State) (baseR : Reg),
    (∀ (x : BitVec 3) (y : BitVec 6), decode (0b1100#4 ++ x ++ regBits baseR ++ y) = .jmp baseR) ∧
    ∃ t, exec (.jmp baseR) s = .next t ∧ GoesTo s t (s.reg baseR)) ∧
  decode 0xC1C0 = .jmp 7 ∧
  (∀ (i : Instr) (s u v : State), (∃ o, i = .jsr o) ∨ (∃ b, i = .jsrr b) → exec i s = .next u →
    v.reg 7 = u.reg 7 → ∃ t, exec (.jmp 7) v = .next t ∧ GoesTo v t s.pc)

/-- R103: `JSR` completes: R7 and the target come from the same `pc`. -/
def Obligations.JsrCompletes : Prop :=
  ∀ (s : State) (offset11 : BitVec 11), decode (0b0100#4 ++ 0b1#1 ++ offset11) = .jsr offset11 ∧
    ∃ t, exec (.jsr offset11) s = .next t ∧ CallsTo s t (s.pc + sext offset11)

/-- R104: `JSRR` completes; with R7 as base it goes to the new R7. -/
def Obligations.JsrrCompletes : Prop :=
  ∀ (s : State) (baseR : Reg),
    (∀ (x : BitVec 2) (y : BitVec 6), decode (0b0100#4 ++ 0b0#1 ++ x ++ regBits baseR ++ y) = .jsrr baseR) ∧
    ∃ t, exec (.jsrr baseR) s = .next t ∧ CallsTo s t (if baseR = 7 then s.pc else s.reg baseR)

/-! ### Data movement -/

/-- R111: `LD` completes wherever its read does, at 0xFE00 too. -/
def Obligations.LdCompletes : Prop :=
  ∀ (dr : Reg) (offset9 : BitVec 9), decode (0b0010#4 ++ regBits dr ++ offset9) = .ld dr offset9 ∧
    ∀ (s u : State) (v : Word), ReadOf s (s.pc + sext offset9) v u →
      ∃ t, exec (.ld dr offset9) s = .next t ∧ WritesResult u t dr v

/-- R112: `LDI` completes: the pointer is read first, then the data, either at 0xFE00 too. -/
def Obligations.LdiCompletes : Prop :=
  ∀ (dr : Reg) (offset9 : BitVec 9), decode (0b1010#4 ++ regBits dr ++ offset9) = .ldi dr offset9 ∧
    ∀ (s u w : State) (p v : Word), ReadOf s (s.pc + sext offset9) p u → ReadOf u p v w →
      ∃ t, exec (.ldi dr offset9) s = .next t ∧ WritesResult w t dr v

/-- R113: `LDR` completes wherever its read does, at 0xFE00 too, the destination being the base too. -/
def Obligations.LdrCompletes : Prop :=
  ∀ (dr baseR : Reg) (offset6 : BitVec 6),
    decode (0b0110#4 ++ regBits dr ++ regBits baseR ++ offset6) = .ldr dr baseR offset6 ∧
    ∀ (s u : State) (v : Word), ReadOf s (s.reg baseR + sext offset6) v u →
      ∃ t, exec (.ldr dr baseR offset6) s = .next t ∧ WritesResult u t dr v

/-- R117: `LEA` completes: the address is the result, `cond` is set from it, and nothing is read. -/
def Obligations.LeaCompletes : Prop :=
  ∀ (s : State) (dr : Reg) (offset9 : BitVec 9),
    decode (0b1110#4 ++ regBits dr ++ offset9) = .lea dr offset9 ∧
    ∃ t, exec (.lea dr offset9) s = .next t ∧ WritesResult s t dr (s.pc + sext offset9)

/-- R118: `ST` completes, at the keyboard's addresses too. -/
def Obligations.StCompletes : Prop :=
  ∀ (s : State) (sr : Reg) (offset9 : BitVec 9),
    decode (0b0011#4 ++ regBits sr ++ offset9) = .st sr offset9 ∧
    ∃ t, exec (.st sr offset9) s = .next t ∧ StoresWord s t (s.pc + sext offset9) (s.reg sr)

/-- R119: `STI` completes wherever the read of its pointer does; the store goes to the pointer read. -/
def Obligations.StiCompletes : Prop :=
  ∀ (sr : Reg) (offset9 : BitVec 9), decode (0b1011#4 ++ regBits sr ++ offset9) = .sti sr offset9 ∧
    ∀ (s u : State) (p : Word), ReadOf s (s.pc + sext offset9) p u →
      ∃ t, exec (.sti sr offset9) s = .next t ∧ StoresWord u t p (s.reg sr)

/-- R120: `STR` completes, the stored register being the base too. -/
def Obligations.StrCompletes : Prop :=
  ∀ (s : State) (sr baseR : Reg) (offset6 : BitVec 6),
    decode (0b0111#4 ++ regBits sr ++ regBits baseR ++ offset6) = .str sr baseR offset6 ∧
    ∃ t, exec (.str sr baseR offset6) s = .next t ∧ StoresWord s t (s.reg baseR + sext offset6) (s.reg sr)

/-- Every read of memory gives a word or fails, and it fails only where the host fails the poll of 0xFE00 (the
spec's decision D10; that the failing answer is taken and no cell written is log 9): the hypotheses of the load
statements leave out nothing else. -/
def Obligations.EveryReadGivesOrFails : Prop :=
  ∀ (s : State) (a : Word), (∃ v u, ReadOf s a v u ∧ memRead a s = .done v u) ∨
    (∃ u, ReadFails s a u ∧ memRead a s = .ended u)

/-- R121: `LEA` then `LDR DR, DR, #0` equals `LD`, where the address is not 0xFE00. -/
def Obligations.LeaThenLdrEqualsLd : Prop :=
  ∀ (s : State) (dr : Reg) (offset9 : BitVec 9), s.pc + sext offset9 ≠ 0xFE00 →
    ∃ u w t, exec (.lea dr offset9) s = .next u ∧
      exec (.ldr dr dr 0) (u.setPc (u.pc + 1)) = .next w ∧ exec (.ld dr offset9) s = .next t ∧
      t.reg dr = s.cell (s.pc + sext offset9) ∧ CondIs t.cond (t.reg dr) ∧
      w.pc = s.pc + 1 ∧ t.pc = s.pc ∧ w = t.setPc (s.pc + 1)

/-! ### System -/

/-- R125, R126: `RTI` and the reserved opcode complete and change nothing, whatever their low bits. -/
def Obligations.InertOpcodesComplete : Prop :=
  ∀ s : State, exec .rti s = .next s ∧ exec .reserved s = .next s ∧
    ∀ low : BitVec 12, decode (0x8#4 ++ low) = .rti ∧ decode (0xD#4 ++ low) = .reserved

/-- R128: `GETC` completes where the host has a character to give (that it changes nothing else is the spec's
decision D12). -/
def Obligations.GetcCompletes : Prop :=
  (∀ x : BitVec 4, decode (0b1111#4 ++ x ++ 0x20#8) = .trapGetc) ∧
  ∀ (s : State) (c : Byte) (k : List KbdAnswer), s.hold = none → ReadGets s c k →
    ∃ t, exec .trapGetc s = .next t ∧ TrapFrame s t ∧ t.reg 0 = c.setWidth 16 ∧
      t.cond = (if c = 0 then .z else .p) ∧ t.kbd = k ∧ t.console = s.console ∧
      t.conPort = s.conPort ∧ SameControl s t

/-- R127, R129: `OUT` completes where the console takes the byte (that it changes nothing else, R135, is the spec's
decision D12, log 14). -/
def Obligations.OutCompletes : Prop :=
  (∀ x : BitVec 4, decode (0b1111#4 ++ x ++ 0x21#8) = .trapOut) ∧
  ∀ s : State, ConTakes s 1 →
    ∃ t, exec .trapOut s = .next t ∧ TrapFrame s t ∧ t.reg 0 = s.reg 0 ∧ t.cond = s.cond ∧
      t.console = s.console ++ [BitVec.ofNat 8 ((s.reg 0).toNat % 256)] ∧
      t.conPort = s.conPort.drop 1 ∧ t.kbd = s.kbd ∧ SameControl s t

/-- R130: `PUTS` completes and is the scan of the rule, at 0xFE00 and past 0xFFFF too (the spec's decisions D5,
D6, D7). Only a scan that never ends, which needs an endless keyboard input, is held instead, at an address on
its way (log 8): see `EndlessScanNeverCompletes`. -/
def Obligations.PutsRunsTheScan : Prop :=
  (∀ x : BitVec 4, decode (0b1111#4 ++ x ++ 0x22#8) = .trapPuts) ∧
  ∀ s : State, s.hold = none →
    ∃ t, exec .trapPuts s = .next t ∧
      (∀ r, t.reg r = if r = 7 then s.pc else s.reg r) ∧ t.cond = s.cond ∧ t.pc = s.pc ∧ t.run = s.run ∧
      ((ScanRun putsText (s.reg 0) (linked s) t ∧ t.hold = none) ∨
        (s.kbdThen ≠ none ∧ (¬ ∃ e, ScanRun putsText (s.reg 0) (linked s) e) ∧
          ∃ n, 0 < n ∧ ScanGoes putsText n (s.reg 0) (linked s) { t with hold := none } ∧
            t.hold = some (.puts (s.reg 0 + BitVec.ofNat 16 n))))

/-- R131: `IN` completes where the console takes its 20 bytes and the host has a character to give (the order is
the spec's decision D16). -/
def Obligations.InCompletes : Prop :=
  (∀ x : BitVec 4, decode (0b1111#4 ++ x ++ 0x23#8) = .trapIn) ∧
  ∀ (s : State) (c : Byte) (k : List KbdAnswer), s.hold = none → ReadGets s c k → ConTakes s 20 →
    ∃ t, exec .trapIn s = .next t ∧ TrapFrame s t ∧ t.reg 0 = c.setWidth 16 ∧
      t.cond = (if c = 0 then .z else .p) ∧ t.kbd = k ∧ t.console = s.console ++ promptText ++ [c] ∧
      t.conPort = s.conPort.drop 20 ∧ SameControl s t

/-- R132: `PUTSP` completes and is the scan of the rule, at 0xFE00 and past 0xFFFF too (as
`PutsRunsTheScan`; the zero low byte is the spec's decision D8). -/
def Obligations.PutspRunsTheScan : Prop :=
  (∀ x : BitVec 4, decode (0b1111#4 ++ x ++ 0x24#8) = .trapPutsp) ∧
  ∀ s : State, s.hold = none →
    ∃ t, exec .trapPutsp s = .next t ∧
      (∀ r, t.reg r = if r = 7 then s.pc else s.reg r) ∧ t.cond = s.cond ∧ t.pc = s.pc ∧ t.run = s.run ∧
      ((ScanRun putspText (s.reg 0) (linked s) t ∧ t.hold = none) ∨
        (s.kbdThen ≠ none ∧ (¬ ∃ e, ScanRun putspText (s.reg 0) (linked s) e) ∧
          ∃ n, 0 < n ∧ ScanGoes putspText n (s.reg 0) (linked s) { t with hold := none } ∧
            t.hold = some (.putsp (s.reg 0 + BitVec.ofNat 16 n))))

/-- R133: `HALT` completes where the console takes its 5 bytes: `run` is cleared, `pc` and R7 are the same (that it
changes nothing else, R135, is the spec's decision D12, log 14). -/
def Obligations.HaltCompletes : Prop :=
  (∀ x : BitVec 4, decode (0b1111#4 ++ x ++ 0x25#8) = .trapHalt) ∧
  ∀ s : State, ConTakes s 5 →
    ∃ t, exec .trapHalt s = .next t ∧ TrapFrame s t ∧ t.reg 0 = s.reg 0 ∧ t.cond = s.cond ∧
      t.console = s.console ++ haltText ∧ t.conPort = s.conPort.drop 5 ∧ t.kbd = s.kbd ∧
      t.run = false ∧ t.fault = s.fault ∧ t.hold = s.hold

/-- R134: `TRAP` with another vector: R7, then the fault with the vector, and nothing else; `run` stays, and
the core's further steps change nothing (the spec's decision D3; that they answer the same state is the model's
choice, log 6). -/
def Obligations.OtherVectorFaults : Prop :=
  ∀ (s : State) (v : BitVec 8), v < 0x20 ∨ 0x25 < v →
    (∀ x : BitVec 4, decode (0b1111#4 ++ x ++ v) = .trapOther v) ∧
    ∃ t, exec (.trapOther v) s = .next t ∧ TrapFrame s t ∧ t.reg 0 = s.reg 0 ∧ t.cond = s.cond ∧
      t.fault = some (.invalidTrapvect v) ∧ t.run = s.run ∧ t.hold = s.hold ∧ SamePorts s t ∧
      step t = .next t

/-- R135: whatever a trap routine meets, R1 to R6 and `pc` are as they were and R7 is the linkage; R0 changes
in `GETC` and `IN` only; memory changes only where a scan polls 0xFE00 (the spec's decision D12). -/
def Obligations.TrapRoutinesLeaveAlone : Prop :=
  ∀ (i : Instr) (s t : State), isTrap i = true → exec i s = .next t →
    t.reg 7 = s.pc ∧ (∀ r, r ≠ 7 → r ≠ 0 → t.reg r = s.reg r) ∧ t.pc = s.pc ∧
    (i ≠ .trapGetc → i ≠ .trapIn → t.reg 0 = s.reg 0) ∧
    (i ≠ .trapPuts → i ≠ .trapPutsp → SameMemory s t) ∧
    (∀ b, b ≠ 0xFE00 → b ≠ 0xFE02 → t.cell b = s.cell b)

/-- A string of nonzero words that does not meet 0xFE00, ended by a zero word, is written by `PUTS` one low
byte a word, and by `PUTSP` the low byte and then the high byte unless it is zero; whatever the keyboard input,
memory and it are as they were (the spec's decisions D6, D7, D8, D12, log 14). -/
def Obligations.PutsPrintsString : Prop :=
  ∀ (s : State) (text : List Word), s.hold = none →
    (∀ j, (h : j < text.length) → s.cell (s.reg 0 + BitVec.ofNat 16 j) = text[j] ∧ text[j] ≠ 0) →
    s.cell (s.reg 0 + BitVec.ofNat 16 text.length) = 0 →
    (∀ j, j ≤ text.length → s.reg 0 + BitVec.ofNat 16 j ≠ 0xFE00) →
    ∀ (i : Instr) (emit : Word → List Byte),
    (i = .trapPuts ∧ emit = putsText) ∨ (i = .trapPutsp ∧ emit = putspText) →
    ConTakes s (text.flatMap emit).length →
    ∃ t, exec i s = .next t ∧ TrapFrame s t ∧ t.reg 0 = s.reg 0 ∧ t.cond = s.cond ∧
      t.console = s.console ++ text.flatMap emit ∧ t.conPort = s.conPort.drop (text.flatMap emit).length ∧
      t.kbd = s.kbd ∧ SameControl s t

/-- R130 (d), R132 (c): with a key ready at every poll for ever and no zero word on the way, the scan of `PUTS`
and of `PUTSP` never ends (the spec's decision D7): the core runs on, held in the routine, however long (how the
model shows it is its choice, log 8). -/
def Obligations.EndlessScanNeverCompletes : Prop :=
  ∀ (s : State) (c : Byte), Ready s → s.kbd = [] → s.kbdThen = some c → c ≠ 0 → s.conPort = [] →
    (∀ a, a ≠ 0xFE00 → s.cell a ≠ 0) →
    (∃ t, exec .trapPuts s = .next t ∧
      ∀ n, ∃ u a, Steps n t u ∧ u.hold = some (.puts a) ∧ u.run = true ∧ u.fault = none) ∧
    (∃ t, exec .trapPutsp s = .next t ∧
      ∀ n, ∃ u a, Steps n t u ∧ u.hold = some (.putsp a) ∧ u.run = true ∧ u.fault = none)

/-! ### Waiting and failing hosts -/

/-- R86: while the host has no character `GETC` and `IN` wait, their effects so far made (R7; the prompt); the
waiting core does nothing; and an answer supplied later has the effect it would have had from the start
(the hold is the model's form of the wait, log 5; that the end of input waits is the spec's decision D10). -/
def Obligations.WaitingReadIsLiftedBySupply : Prop :=
  ∀ s : State, Ready s → ReadWaits s →
    (∃ t, exec .trapGetc s = .next t ∧ TrapFrame s t ∧ t.hold = some .getc ∧ t.reg 0 = s.reg 0 ∧
      t.cond = s.cond ∧ t.run = true ∧ t.fault = none ∧ SamePorts s t ∧ step t = .next t ∧
      ∀ more, step (t.supply more) = exec .trapGetc (s.supply more)) ∧
    (ConTakes s 19 → ∃ t, exec .trapIn s = .next t ∧ TrapFrame s t ∧ t.hold = some .inChar ∧
      t.reg 0 = s.reg 0 ∧ t.cond = s.cond ∧ t.run = true ∧ t.fault = none ∧
      t.console = s.console ++ promptText ∧ t.kbd = s.kbd ∧ t.conPort = s.conPort.drop 19 ∧ step t = .next t ∧
      ∀ more, step (t.supply more) = exec .trapIn (s.supply more))

/-- R146, R148, R152 at 0xFE00: a failing poll ends the step with `HostIOError` and nothing else done, in
the fetch before the increment, in a load, in either read of `LDI`, in the pointer read of `STI` (the spec's
decision D10 and the order it derives; log 9). -/
def Obligations.FailedPollEndsTheStep : Prop :=
  ∀ (s u : State),
    (Ready s → ReadFails s s.pc u → step s = .next u) ∧
    (∀ dr offset9, ReadFails s (s.pc + sext offset9) u →
      exec (.ld dr offset9) s = .next u ∧ exec (.ldi dr offset9) s = .next u ∧ exec (.sti dr offset9) s = .next u) ∧
    (∀ dr baseR offset6, ReadFails s (s.reg baseR + sext offset6) u → exec (.ldr dr baseR offset6) s = .next u) ∧
    (∀ w dr offset9 p, ReadOf s (s.pc + sext offset9) p w → ReadFails w p u → exec (.ldi dr offset9) s = .next u)

/-- R146, R148, R152 in the trap routines: the failing port operation ends the routine with `HostIOError`;
R7 and the bytes before it are kept, nothing after it is done (the spec's decision D10). -/
def Obligations.FailedPortEndsTheRoutine : Prop :=
  ∀ s : State, s.hold = none →
    (ConFailsAt s 0 → exec .trapOut s = .next (writeFailed (linked s) [])) ∧
    (∀ n, n < 5 → ConFailsAt s n → exec .trapHalt s = .next (writeFailed (linked s) (haltText.take n))) ∧
    (∀ n, n < 19 → ConFailsAt s n → exec .trapIn s = .next (writeFailed (linked s) (promptText.take n))) ∧
    (∀ k, ReadFailsNext s k →
      exec .trapGetc s = .next { linked s with kbd := k, fault := some .hostIOError } ∧
      (ConTakes s 19 → exec .trapIn s =
        .next { written (linked s) promptText with kbd := k, fault := some .hostIOError })) ∧
    (∀ c k, ReadGets s c k → ConFailsAt s 19 →
      exec .trapIn s = .next { writeFailed (linked s) promptText with kbd := k })

/-! ### The instruction cycle and rules of the whole machine -/

/-- R80: a ready core fetches with `MemRead`, increments `pc`, and runs the instruction the word decodes to. -/
def Obligations.StepRunsDecodedInstruction : Prop :=
  ∀ (s u : State) (w : Word), Ready s → ReadOf s s.pc w u → step s = exec (decode w) (u.setPc (s.pc + 1))

/-- R81: a fetch at 0xFE00 polls the keyboard, runs 0x8000 or 0x0000, and goes on at 0xFE01 (that the poll takes
the key is the spec's decision D4, log 14). -/
def Obligations.FetchAtKbsr : Prop :=
  ∀ s : State, Ready s → s.pc = 0xFE00 →
    (∀ c k, KeyNext s c k → ∃ t, step s = .next t ∧ t.pc = 0xFE01 ∧ t.kbd = k ∧ t.cond = s.cond ∧
      (∀ r, t.reg r = s.reg r) ∧ SameControl s t ∧ t.console = s.console ∧
      t.kbdThen = s.kbdThen ∧ t.conPort = s.conPort ∧
      ∀ b, t.cell b = if b = 0xFE00 then 0x8000 else if b = 0xFE02 then c.setWidth 16 else s.cell b) ∧
    (∀ k, NoKeyNext s k → ∃ t, step s = .next t ∧ t.pc = 0xFE01 ∧ t.kbd = k ∧ t.cond = s.cond ∧
      (∀ r, t.reg r = s.reg r) ∧ SameControl s t ∧ t.console = s.console ∧
      t.kbdThen = s.kbdThen ∧ t.conPort = s.conPort ∧
      ∀ b, t.cell b = if b = 0xFE00 then 0x0000 else s.cell b)

/-- R82: `pc` is incremented exactly once per fetched instruction, before it runs: no instruction but `BR`,
`JMP`, `JSR` and `JSRR` writes it again, inert ones, `HALT` and a faulting `TRAP` included. -/
def Obligations.PcIncrementedOncePerStep : Prop :=
  ∀ (s u : State) (w : Word), Ready s → ReadOf s s.pc w u →
    (∃ v, v.pc = s.pc + 1 ∧ step s = exec (decode w) v) ∧
    ∀ t, writesPc (decode w) = false → step s = .next t → t.pc = s.pc + 1

/-- R94: after every instruction that sets `cond` and runs to its end, `cond` is that of the destination. -/
def Obligations.CondMatchesDestination : Prop :=
  ∀ (i : Instr) (dr : Reg) (s t : State), setsCondFrom i = some dr → exec i s = .next t →
    s.fault = none → t.fault = none → t.hold = none → CondIs t.cond (t.reg dr)

/-- R27: no other instruction writes `cond`, and none but `BR` reads it: with another `cond` before, every
other instruction leaves the same state but for `cond`. -/
def Obligations.CondWritersAndReader : Prop :=
  ∀ (i : Instr) (s t : State), exec i s = .next t →
    (setsCondFrom i = none → t.cond = s.cond) ∧
    ((∀ m o, i ≠ .br m o) → ∀ c, ∃ u, exec i { s with cond := c } = .next u ∧ { u with cond := t.cond } = t)

/-- R22: a register changes only where the instruction names it as destination, or is R7 or R0 as R22 says. -/
def Obligations.RegisterWriters : Prop :=
  ∀ (i : Instr) (s t : State) (r : Reg), exec i s = .next t → writesReg i r = false → t.reg r = s.reg r

/-- R48: only `ST`, `STI` and `STR` store; every other instruction changes no cell but the keyboard's two, and
those only if it reads memory. -/
def Obligations.MemoryWriters : Prop :=
  ∀ (i : Instr) (s t : State) (b : Word), exec i s = .next t → storesWord i = false →
    (b ≠ 0xFE00 ∧ b ≠ 0xFE02) ∨ readsMemory i = false → t.cell b = s.cell b

/-- R10, R34: a step only adds to the console and only takes from the keyboard input. -/
def Obligations.StreamsOnlyAdvance : Prop :=
  ∀ s t : State, step s = .next t →
    s.console <+: t.console ∧ t.kbd <:+ s.kbd ∧ t.conPort <:+ s.conPort ∧ t.kbdThen = s.kbdThen

/-- R159: only the routines `OUT`, `PUTS`, `PUTSP`, `IN` and `HALT` write to the console. -/
def Obligations.ConsoleWriters : Prop :=
  ∀ (i : Instr) (s t : State), exec i s = .next t → writesConsole i = false →
    t.console = s.console ∧ t.conPort = s.conPort

/-- R30: only `HALT` clears `run`, and no step sets it. -/
def Obligations.RunClearedOnlyByHalt : Prop :=
  (∀ (i : Instr) (s t : State), exec i s = .next t → i ≠ .trapHalt → t.run = s.run) ∧
  (∀ s t : State, step s = .next t → t.run = true → s.run = true)

/-- R66: an instruction raises `InvalidTrapvect` exactly when its word is a `TRAP` with a vector outside 0x20
to 0x25, whatever `ir[11:8]` is. -/
def Obligations.IllegalEncodings : Prop :=
  ∀ (w : Word) (s t : State), s.fault = none → exec (decode w) s = .next t →
    ((∃ v, t.fault = some (.invalidTrapvect v)) ↔
      w.toNat / 4096 = 15 ∧ (w.toNat % 256 < 0x20 ∨ 0x25 < w.toNat % 256))

/-- R31, R147: a step never clears the fault status, and raises nothing but the two faults that can arise. -/
def Obligations.FaultStatusIsFinal : Prop :=
  ∀ s t : State, step s = .next t →
    (s.fault ≠ none → t.fault = s.fault) ∧ (s.fault = none → t.fault ≠ some .invalidOpcode)

/-- R178: a stopped core changes nothing (the spec's decision D14; that the model's step answers the same state is
log 6). -/
def Obligations.StoppedCoreKeepsItsState : Prop :=
  ∀ s : State, s.run = false ∨ s.fault ≠ none → step s = .next s

/-- R54: a word stored in the cell at `pc` is the one the next step runs (the spec derives it from R51 and R81). -/
def Obligations.NextFetchSeesStore : Prop :=
  ∀ (s : State) (v : Word), Ready s → s.pc ≠ 0xFE00 →
    step (memWrite s.pc v s) = exec (decode v) ((memWrite s.pc v s).setPc (s.pc + 1))

/-- Every step answers a next state: no instruction is refused and none stops the model (log 7). -/
def Obligations.EveryStepAnswersNextState : Prop :=
  (∀ s : State, ∃ t, step s = .next t) ∧ (∀ (i : Instr) (s : State), ∃ t, exec i s = .next t)

/-! ### Encoding -/

/-- Words written out bit by bit from R63 decode to the instructions they stand for. -/
def Obligations.WordsDecode : Prop :=
  decode 0b0000111000001001 = .br 0b111 9 ∧ decode 0b0001001001100111 = .addImm 1 1 7 ∧
  decode 0b0101001001000010 = .andReg 1 1 2 ∧ decode 0b1001000010111111 = .not 0 2 ∧
  decode 0b0100100000000010 = .jsr 2 ∧ decode 0b0100000010000000 = .jsrr 2 ∧
  decode 0b0110001010111111 = .ldr 1 2 0b111111 ∧ decode 0b0011011000000100 = .st 3 4 ∧
  decode 0b1111000000100101 = .trapHalt ∧ decode 0b1111000000110000 = .trapOther 0x30

/-- Decoding the word of a well-formed instruction gives the instruction back, for every operand. -/
def Obligations.DecodeEncodeRoundTrip : Prop :=
  ∀ i : Instr, i.wellFormed = true → decode (encode i) = i

/-- R65: every word decodes to a well-formed instruction, and the bits no field names do not matter: they may
be given any value without changing the instruction (the spec's decision D11). -/
def Obligations.IgnoredBitsDoNotMatter : Prop :=
  (∀ w : Word, (decode w).wellFormed = true) ∧
  (∀ (dr sr1 sr2 : BitVec 3) (x : BitVec 2),
    decode (0b0001#4 ++ dr ++ sr1 ++ 0b0#1 ++ x ++ sr2) = .addReg dr.toFin sr1.toFin sr2.toFin ∧
    decode (0b0101#4 ++ dr ++ sr1 ++ 0b0#1 ++ x ++ sr2) = .andReg dr.toFin sr1.toFin sr2.toFin) ∧
  (∀ (dr sr1 : BitVec 3) (x : BitVec 6), decode (0b1001#4 ++ dr ++ sr1 ++ x) = .not dr.toFin sr1.toFin) ∧
  (∀ (x base : BitVec 3) (y : BitVec 6), decode (0b1100#4 ++ x ++ base ++ y) = .jmp base.toFin) ∧
  (∀ (x : BitVec 2) (base : BitVec 3) (y : BitVec 6),
    decode (0b0100#4 ++ 0b0#1 ++ x ++ base ++ y) = .jsrr base.toFin) ∧
  (∀ (x : BitVec 4) (v : BitVec 8), decode (0b1111#4 ++ x ++ v) = decode (0b1111#4 ++ 0b0000#4 ++ v)) ∧
  (∀ x : BitVec 12, decode (0b1000#4 ++ x) = .rti ∧ decode (0b1101#4 ++ x) = .reserved)

/-! ### Boot -/

/-- R172, R174: the image of an origin and a payload puts the payload at the origin, up to 0xFFFF and not
beyond, the other cells zero, and changes nothing else of the reset state. -/
def Obligations.ImageLoad : Prop :=
  ∀ (origin : Word) (payload : List Word),
    ∃ t, boot (some ((origin :: payload).flatMap wordBytes)) = .ok t ∧
      (∀ a : Word, t.cell a = if origin.toNat ≤ a.toNat then payload.getD (a.toNat - origin.toNat) 0 else 0) ∧
      t = { State.reset with mem := t.mem } ∧ t.pc = 0x3000

/-- R175: an unreadable or too short file starts nothing, an odd last byte is ignored, and an image of an
origin only loads nothing (the spec's decision D13, log 13). -/
def Obligations.ImageCornerCases : Prop :=
  boot none = .error .imageUnreadable ∧ boot (some []) = .error .imageUnreadable ∧
  (∀ b, boot (some [b]) = .error .imageUnreadable) ∧
  (∀ hi lo, boot (some [hi, lo]) = .ok State.reset) ∧
  (∀ words : List Word, words ≠ [] → ∀ b,
    boot (some (words.flatMap wordBytes ++ [b])) = boot (some (words.flatMap wordBytes)))

/-! ### The invariant -/

/-- The invariant holds at reset. -/
def Obligations.ResetKeepsInvariant : Prop := Inv State.reset

/-- The invariant holds of the state a boot ends in. -/
def Obligations.BootKeepsInvariant : Prop := ∀ file t, boot file = .ok t → Inv t

/-- Every step keeps the invariant: the canonical memory, the linkage of a held, halted or badly trapped core,
the last words on the console of a halted one. -/
def Obligations.StepKeepsInvariant : Prop := ∀ s t : State, Inv s → step s = .next t → Inv t
end

