-- ==== Sys2Proof/Laws/Operands.lean ====
section
/-! SUPPORT. The condition of a word by its signed value, and sign extension as the library's. -/

namespace Sys2Proof.Machine

open Sys2Proof.Safety

/-- `setcc` sets the condition of the word as a signed number (R26, R93 c). -/
theorem condOf_condIs (v : Word) : CondIs (condOf v) v := by
  have hv : v.toInt = if 2 * v.toNat < 65536 then (v.toNat : Int) else (v.toNat : Int) - 65536 := rfl
  have h15 : v.getLsbD 15 = decide (v.toNat / 32768 % 2 = 1) := by
    rw [BitVec.getLsbD, Nat.testBit_eq_decide_div_mod_eq]
  have hlt := v.isLt
  unfold condOf
  by_cases h : v.toNat / 32768 % 2 = 1
  · rw [h15, if_pos (by simp [h])]
    simp only [CondIs, hv]
    split <;> omega
  · rw [h15, if_neg (by simp [h])]
    by_cases h0 : v = 0
    · subst h0; rfl
    · have hn : v.toNat ≠ 0 := fun e => h0 (BitVec.eq_of_toNat_eq e)
      rw [if_neg h0]
      simp only [CondIs, hv]
      split <;> omega

/-- A word has one condition. -/
theorem condIs_unique {c d : Cond} {v : Word} (hc : CondIs c v) (hd : CondIs d v) : c = d := by
  cases c <;> cases d <;> simp only [CondIs] at hc hd <;> first | rfl | omega

/-- `sext` of a field is the sign extension of the library. -/
theorem sext_eq_signExtend {n : Nat} (v : BitVec n) (h : n ≤ 16) : sext v = v.signExtend 16 := by
  apply BitVec.eq_of_getElem_eq
  intro i hi
  unfold sext
  by_cases hm : v.msb = true
  · have : (0xFFFF#16).getLsbD (i - n) = true := by
      have : i - n < 16 := by omega
      interval_cases (i - n) <;> rfl
    by_cases hin : i < n
    · simp [hm, BitVec.getElem_signExtend, hin]
    · simp [hm, BitVec.getElem_signExtend, hin, this]
  · by_cases hin : i < n
    · simp [hm, BitVec.getElem_signExtend, hin]
    · simp [hm, BitVec.getElem_signExtend, hin, BitVec.getLsbD_of_ge v i (by omega)]

end Sys2Proof.Machine
end

