-- ==== Sys2Proof/Laws/State.lean ====
section
/-! SUPPORT. What each update of the state does to each field, true by definition, and what it does to the registers and the cells as they are read. -/

namespace Sys2Proof.Machine

@[simp] theorem State.setReg_regs (s : State) (r : Reg) (v : Word) : (s.setReg r v).regs = s.regs.set r.val v r.isLt := rfl
@[simp] theorem State.setReg_pc (s : State) (r : Reg) (v : Word) : (s.setReg r v).pc = s.pc := rfl
@[simp] theorem State.setReg_cond (s : State) (r : Reg) (v : Word) : (s.setReg r v).cond = s.cond := rfl
@[simp] theorem State.setReg_mem (s : State) (r : Reg) (v : Word) : (s.setReg r v).mem = s.mem := rfl
@[simp] theorem State.setReg_run (s : State) (r : Reg) (v : Word) : (s.setReg r v).run = s.run := rfl
@[simp] theorem State.setReg_fault (s : State) (r : Reg) (v : Word) : (s.setReg r v).fault = s.fault := rfl
@[simp] theorem State.setReg_hold (s : State) (r : Reg) (v : Word) : (s.setReg r v).hold = s.hold := rfl
@[simp] theorem State.setReg_console (s : State) (r : Reg) (v : Word) : (s.setReg r v).console = s.console := rfl
@[simp] theorem State.setReg_kbd (s : State) (r : Reg) (v : Word) : (s.setReg r v).kbd = s.kbd := rfl
@[simp] theorem State.setReg_kbdThen (s : State) (r : Reg) (v : Word) : (s.setReg r v).kbdThen = s.kbdThen := rfl
@[simp] theorem State.setReg_conPort (s : State) (r : Reg) (v : Word) : (s.setReg r v).conPort = s.conPort := rfl

@[simp] theorem State.setPc_regs (s : State) (v : Word) : (s.setPc v).regs = s.regs := rfl
@[simp] theorem State.setPc_pc (s : State) (v : Word) : (s.setPc v).pc = v := rfl
@[simp] theorem State.setPc_cond (s : State) (v : Word) : (s.setPc v).cond = s.cond := rfl
@[simp] theorem State.setPc_mem (s : State) (v : Word) : (s.setPc v).mem = s.mem := rfl
@[simp] theorem State.setPc_run (s : State) (v : Word) : (s.setPc v).run = s.run := rfl
@[simp] theorem State.setPc_fault (s : State) (v : Word) : (s.setPc v).fault = s.fault := rfl
@[simp] theorem State.setPc_hold (s : State) (v : Word) : (s.setPc v).hold = s.hold := rfl
@[simp] theorem State.setPc_console (s : State) (v : Word) : (s.setPc v).console = s.console := rfl
@[simp] theorem State.setPc_kbd (s : State) (v : Word) : (s.setPc v).kbd = s.kbd := rfl
@[simp] theorem State.setPc_kbdThen (s : State) (v : Word) : (s.setPc v).kbdThen = s.kbdThen := rfl
@[simp] theorem State.setPc_conPort (s : State) (v : Word) : (s.setPc v).conPort = s.conPort := rfl

@[simp] theorem State.setCc_regs (s : State) (v : Word) : (s.setCc v).regs = s.regs := rfl
@[simp] theorem State.setCc_pc (s : State) (v : Word) : (s.setCc v).pc = s.pc := rfl
@[simp] theorem State.setCc_cond (s : State) (v : Word) : (s.setCc v).cond = condOf v := rfl
@[simp] theorem State.setCc_mem (s : State) (v : Word) : (s.setCc v).mem = s.mem := rfl
@[simp] theorem State.setCc_run (s : State) (v : Word) : (s.setCc v).run = s.run := rfl
@[simp] theorem State.setCc_fault (s : State) (v : Word) : (s.setCc v).fault = s.fault := rfl
@[simp] theorem State.setCc_hold (s : State) (v : Word) : (s.setCc v).hold = s.hold := rfl
@[simp] theorem State.setCc_console (s : State) (v : Word) : (s.setCc v).console = s.console := rfl
@[simp] theorem State.setCc_kbd (s : State) (v : Word) : (s.setCc v).kbd = s.kbd := rfl
@[simp] theorem State.setCc_kbdThen (s : State) (v : Word) : (s.setCc v).kbdThen = s.kbdThen := rfl
@[simp] theorem State.setCc_conPort (s : State) (v : Word) : (s.setCc v).conPort = s.conPort := rfl

@[simp] theorem State.setResult_regs (s : State) (r : Reg) (v : Word) : (s.setResult r v).regs = s.regs.set r.val v r.isLt := rfl
@[simp] theorem State.setResult_pc (s : State) (r : Reg) (v : Word) : (s.setResult r v).pc = s.pc := rfl
@[simp] theorem State.setResult_cond (s : State) (r : Reg) (v : Word) : (s.setResult r v).cond = condOf v := rfl
@[simp] theorem State.setResult_mem (s : State) (r : Reg) (v : Word) : (s.setResult r v).mem = s.mem := rfl
@[simp] theorem State.setResult_run (s : State) (r : Reg) (v : Word) : (s.setResult r v).run = s.run := rfl
@[simp] theorem State.setResult_fault (s : State) (r : Reg) (v : Word) : (s.setResult r v).fault = s.fault := rfl
@[simp] theorem State.setResult_hold (s : State) (r : Reg) (v : Word) : (s.setResult r v).hold = s.hold := rfl
@[simp] theorem State.setResult_console (s : State) (r : Reg) (v : Word) : (s.setResult r v).console = s.console := rfl
@[simp] theorem State.setResult_kbd (s : State) (r : Reg) (v : Word) : (s.setResult r v).kbd = s.kbd := rfl
@[simp] theorem State.setResult_kbdThen (s : State) (r : Reg) (v : Word) : (s.setResult r v).kbdThen = s.kbdThen := rfl
@[simp] theorem State.setResult_conPort (s : State) (r : Reg) (v : Word) : (s.setResult r v).conPort = s.conPort := rfl

@[simp] theorem State.raise_regs (s : State) (f : Fault) : (s.raise f).regs = s.regs := rfl
@[simp] theorem State.raise_pc (s : State) (f : Fault) : (s.raise f).pc = s.pc := rfl
@[simp] theorem State.raise_cond (s : State) (f : Fault) : (s.raise f).cond = s.cond := rfl
@[simp] theorem State.raise_mem (s : State) (f : Fault) : (s.raise f).mem = s.mem := rfl
@[simp] theorem State.raise_run (s : State) (f : Fault) : (s.raise f).run = s.run := rfl
@[simp] theorem State.raise_fault (s : State) (f : Fault) : (s.raise f).fault = some f := rfl
@[simp] theorem State.raise_hold (s : State) (f : Fault) : (s.raise f).hold = s.hold := rfl
@[simp] theorem State.raise_console (s : State) (f : Fault) : (s.raise f).console = s.console := rfl
@[simp] theorem State.raise_kbd (s : State) (f : Fault) : (s.raise f).kbd = s.kbd := rfl
@[simp] theorem State.raise_kbdThen (s : State) (f : Fault) : (s.raise f).kbdThen = s.kbdThen := rfl
@[simp] theorem State.raise_conPort (s : State) (f : Fault) : (s.raise f).conPort = s.conPort := rfl

@[simp] theorem State.supply_regs (s : State) (k : List KbdAnswer) : (s.supply k).regs = s.regs := rfl
@[simp] theorem State.supply_pc (s : State) (k : List KbdAnswer) : (s.supply k).pc = s.pc := rfl
@[simp] theorem State.supply_cond (s : State) (k : List KbdAnswer) : (s.supply k).cond = s.cond := rfl
@[simp] theorem State.supply_mem (s : State) (k : List KbdAnswer) : (s.supply k).mem = s.mem := rfl
@[simp] theorem State.supply_run (s : State) (k : List KbdAnswer) : (s.supply k).run = s.run := rfl
@[simp] theorem State.supply_fault (s : State) (k : List KbdAnswer) : (s.supply k).fault = s.fault := rfl
@[simp] theorem State.supply_hold (s : State) (k : List KbdAnswer) : (s.supply k).hold = s.hold := rfl
@[simp] theorem State.supply_console (s : State) (k : List KbdAnswer) : (s.supply k).console = s.console := rfl
@[simp] theorem State.supply_kbd (s : State) (k : List KbdAnswer) : (s.supply k).kbd = s.kbd ++ k := rfl
@[simp] theorem State.supply_kbdThen (s : State) (k : List KbdAnswer) : (s.supply k).kbdThen = s.kbdThen := rfl
@[simp] theorem State.supply_conPort (s : State) (k : List KbdAnswer) : (s.supply k).conPort = s.conPort := rfl

@[simp] theorem memWrite_regs (s : State) (a v : Word) : (memWrite a v s).regs = s.regs := rfl
@[simp] theorem memWrite_pc (s : State) (a v : Word) : (memWrite a v s).pc = s.pc := rfl
@[simp] theorem memWrite_cond (s : State) (a v : Word) : (memWrite a v s).cond = s.cond := rfl
@[simp] theorem memWrite_mem (s : State) (a v : Word) : (memWrite a v s).mem = s.mem.write a.toNat v := rfl
@[simp] theorem memWrite_run (s : State) (a v : Word) : (memWrite a v s).run = s.run := rfl
@[simp] theorem memWrite_fault (s : State) (a v : Word) : (memWrite a v s).fault = s.fault := rfl
@[simp] theorem memWrite_hold (s : State) (a v : Word) : (memWrite a v s).hold = s.hold := rfl
@[simp] theorem memWrite_console (s : State) (a v : Word) : (memWrite a v s).console = s.console := rfl
@[simp] theorem memWrite_kbd (s : State) (a v : Word) : (memWrite a v s).kbd = s.kbd := rfl
@[simp] theorem memWrite_kbdThen (s : State) (a v : Word) : (memWrite a v s).kbdThen = s.kbdThen := rfl
@[simp] theorem memWrite_conPort (s : State) (a v : Word) : (memWrite a v s).conPort = s.conPort := rfl

@[simp] theorem enterTrap_regs (s : State) : (enterTrap s).regs = s.regs.set Reg.link.val s.pc Reg.link.isLt := rfl
@[simp] theorem enterTrap_pc (s : State) : (enterTrap s).pc = s.pc := rfl
@[simp] theorem enterTrap_cond (s : State) : (enterTrap s).cond = s.cond := rfl
@[simp] theorem enterTrap_mem (s : State) : (enterTrap s).mem = s.mem := rfl
@[simp] theorem enterTrap_run (s : State) : (enterTrap s).run = s.run := rfl
@[simp] theorem enterTrap_fault (s : State) : (enterTrap s).fault = s.fault := rfl
@[simp] theorem enterTrap_hold (s : State) : (enterTrap s).hold = s.hold := rfl
@[simp] theorem enterTrap_console (s : State) : (enterTrap s).console = s.console := rfl
@[simp] theorem enterTrap_kbd (s : State) : (enterTrap s).kbd = s.kbd := rfl
@[simp] theorem enterTrap_kbdThen (s : State) : (enterTrap s).kbdThen = s.kbdThen := rfl
@[simp] theorem enterTrap_conPort (s : State) : (enterTrap s).conPort = s.conPort := rfl

/-! ### Registers as they are read -/

@[simp] theorem State.reg_setReg (s : State) (r q : Reg) (v : Word) :
    (s.setReg r v).reg q = if q = r then v else s.reg q := by
  simp only [State.reg, State.setReg, Vector.getElem_set, Fin.ext_iff, eq_comm]

@[simp] theorem State.reg_setResult (s : State) (r q : Reg) (v : Word) :
    (s.setResult r v).reg q = if q = r then v else s.reg q := State.reg_setReg s r q v

@[simp] theorem reg_enterTrap (s : State) (q : Reg) :
    (enterTrap s).reg q = if q = Reg.link then s.pc else s.reg q := State.reg_setReg s Reg.link q s.pc

/-- A trap routine finds its argument in R0 as it was before the linkage. -/
@[simp] theorem reg_enterTrap_arg (s : State) : (enterTrap s).reg 0 = s.reg 0 :=
  (reg_enterTrap s 0).trans (if_neg (by decide))

@[simp] theorem State.reg_setPc (s : State) (v : Word) (q : Reg) : (s.setPc v).reg q = s.reg q := rfl
@[simp] theorem State.reg_setCc (s : State) (v : Word) (q : Reg) : (s.setCc v).reg q = s.reg q := rfl
@[simp] theorem State.reg_raise (s : State) (f : Fault) (q : Reg) : (s.raise f).reg q = s.reg q := rfl
@[simp] theorem State.reg_supply (s : State) (k : List KbdAnswer) (q : Reg) : (s.supply k).reg q = s.reg q := rfl
@[simp] theorem reg_memWrite (s : State) (a v : Word) (q : Reg) : (memWrite a v s).reg q = s.reg q := rfl

/-! ### Cells as they are read -/

@[simp] theorem State.cell_setReg (s : State) (r : Reg) (v : Word) (b : Word) : (s.setReg r v).cell b = s.cell b := rfl
@[simp] theorem State.cell_setResult (s : State) (r : Reg) (v : Word) (b : Word) : (s.setResult r v).cell b = s.cell b := rfl
@[simp] theorem State.cell_setPc (s : State) (v : Word) (b : Word) : (s.setPc v).cell b = s.cell b := rfl
@[simp] theorem State.cell_setCc (s : State) (v : Word) (b : Word) : (s.setCc v).cell b = s.cell b := rfl
@[simp] theorem State.cell_raise (s : State) (f : Fault) (b : Word) : (s.raise f).cell b = s.cell b := rfl
@[simp] theorem State.cell_supply (s : State) (k : List KbdAnswer) (b : Word) : (s.supply k).cell b = s.cell b := rfl
@[simp] theorem cell_enterTrap (s : State) (b : Word) : (enterTrap s).cell b = s.cell b := rfl

end Sys2Proof.Machine
end

