-- ==== Sys2Proof/Laws/Memory.lean ====
section
/-! SUPPORT. The laws of memory: a read after a write, and that every memory operation keeps the canonical form. The read laws hold of every list, canonical or not. -/

namespace Sys2Proof.Machine

theorem Memory.read_erase (m : Memory) (a b : Nat) :
    Memory.read (Memory.erase m a) b = if b = a then Memory.unlisted else Memory.read m b := by
  induction m with
  | nil => simp [Memory.erase, Memory.read]
  | cons c m ih =>
    obtain ⟨x, w⟩ := c
    by_cases hx : x = a
    · have : Memory.erase ((x, w) :: m) a = Memory.erase m a := by simp [Memory.erase, hx]
      rw [this, ih]
      by_cases hb : b = a
      · simp [hb]
      · have : x ≠ b := fun h => hb (h ▸ hx)
        simp [hb, Memory.read, this]
    · have : Memory.erase ((x, w) :: m) a = (x, w) :: Memory.erase m a := by simp [Memory.erase, hx]
      rw [this]
      by_cases hb : x = b
      · simp [Memory.read, hb, show b ≠ a from hb ▸ hx]
      · simp [Memory.read, hb, ih]

theorem Memory.read_insert {m : Memory} {a : Nat} (h : ∀ c ∈ m, c.1 ≠ a) (v : Word) (b : Nat) :
    Memory.read (Memory.insert m a v) b = if b = a then v else Memory.read m b := by
  induction m with
  | nil => by_cases hb : a = b <;> simp [Memory.insert, Memory.read, hb, eq_comm]
  | cons c m ih =>
    obtain ⟨x, w⟩ := c
    have hx : x ≠ a := h (x, w) (by simp)
    have ih := ih fun c hc => h c (by simp [hc])
    by_cases hlt : a < x
    · simp [Memory.insert, hlt, Memory.read, eq_comm]
    · have hread : Memory.read (Memory.insert ((x, w) :: m) a v) b =
          if x = b then w else Memory.read (Memory.insert m a v) b := by simp [Memory.insert, hlt, Memory.read]
      rw [hread, ih]
      by_cases hb : x = b
      · simp [Memory.read, hb, show b ≠ a from hb ▸ hx]
      · simp [Memory.read, hb]

theorem Memory.erase_ne (m : Memory) (a : Nat) : ∀ c ∈ Memory.erase m a, c.1 ≠ a := by
  simp [Memory.erase]

/-- A read after a write: the word written at that address, every other address as before (R45). -/
theorem Memory.read_write (m : Memory) (a : Nat) (v : Word) (b : Nat) :
    Memory.read (Memory.write m a v) b = if b = a then v else Memory.read m b := by
  unfold Memory.write
  split
  next hv => rw [Memory.read_erase, hv]
  next hv =>
    rw [Memory.read_insert (Memory.erase_ne m a), Memory.read_erase]
    split <;> rfl

theorem Memory.mem_insert (m : Memory) (a : Nat) (v : Word) (c : Nat × Word) :
    c ∈ Memory.insert m a v ↔ c = (a, v) ∨ c ∈ m := by
  induction m with
  | nil => simp [Memory.insert]
  | cons d m ih =>
    obtain ⟨x, w⟩ := d
    by_cases hlt : a < x
    · simp [Memory.insert, hlt]
    · simp only [Memory.insert, hlt, if_false, List.mem_cons, ih]
      tauto

theorem Memory.pairwise_insert {m : Memory} {a : Nat} (hm : m.Pairwise fun c d => c.1 < d.1)
    (h : ∀ c ∈ m, c.1 ≠ a) (v : Word) : (Memory.insert m a v).Pairwise fun c d => c.1 < d.1 := by
  induction m with
  | nil => simp [Memory.insert]
  | cons d m ih =>
    obtain ⟨x, w⟩ := d
    obtain ⟨hd, hm⟩ := List.pairwise_cons.1 hm
    have hx : x ≠ a := h (x, w) (by simp)
    by_cases hlt : a < x
    · simp only [Memory.insert, hlt, if_true, List.pairwise_cons, List.mem_cons]
      exact ⟨by rintro c (rfl | hc) <;> [exact hlt; exact hlt.trans (hd c hc)], hd, hm⟩
    · simp only [Memory.insert, hlt, if_false, List.pairwise_cons, Memory.mem_insert]
      refine ⟨?_, ih hm fun c hc => h c (by simp [hc])⟩
      rintro c (rfl | hc)
      · exact lt_of_le_of_ne (not_lt.1 hlt) hx
      · exact hd c hc

/-- A write inside the address space keeps the canonical form. -/
theorem Memory.wf_write {m : Memory} (h : m.wf) {a : Nat} (ha : a < Config.memSize) (v : Word) :
    Memory.wf (Memory.write m a v) := by
  obtain ⟨hp, hc⟩ := h
  have hpe : (Memory.erase m a).Pairwise fun c d => c.1 < d.1 := hp.filter _
  have hce : ∀ c ∈ Memory.erase m a, c.1 < Config.memSize ∧ c.2 ≠ Memory.unlisted := fun c hm =>
    hc c (List.mem_of_mem_filter hm)
  unfold Memory.write
  split
  next => exact ⟨hpe, hce⟩
  next hv =>
    refine ⟨Memory.pairwise_insert hpe (Memory.erase_ne m a) v, fun c hm => ?_⟩
    rcases (Memory.mem_insert _ _ _ _).1 hm with rfl | hm
    · exact ⟨ha, hv⟩
    · exact hce c hm

@[simp] theorem Memory.wf_nil : Memory.wf [] := by simp [Memory.wf]

/-- A listed cell of a canonical memory is what its address reads as. -/
theorem Memory.read_of_mem {m : Memory} (h : m.Pairwise fun c d => c.1 < d.1) {c : Nat × Word}
    (hc : c ∈ m) : Memory.read m c.1 = c.2 := by
  induction m with
  | nil => simp at hc
  | cons d m ih =>
    obtain ⟨hd, hm⟩ := List.pairwise_cons.1 h
    rcases List.mem_cons.1 hc with rfl | hc
    · simp [Memory.read]
    · have := hd c hc
      simp [Memory.read, show d.1 ≠ c.1 by omega, ih hm hc]

/-- The read of a cell after `MemWrite` (R45). -/
@[simp] theorem cell_memWrite (s : State) (a v b : Word) :
    (memWrite a v s).cell b = if b = a then v else s.cell b := by
  simp only [State.cell, memWrite_mem, Memory.read_write, BitVec.toNat_inj]

/-- `MemWrite` keeps the canonical form of memory. -/
theorem memWrite_wf {s : State} (h : s.mem.wf) (a v : Word) : (memWrite a v s).mem.wf :=
  Memory.wf_write h a.isLt v

/-- What a recorded poll leaves in the cells (R44). -/
theorem cell_recordPoll (answer : Option Byte) (s : State) (b : Word) :
    (recordPoll answer s).cell b =
      if b = kbsrAddr then (if answer.isSome then kbsrReady else 0x0000)
      else if b = kbdrAddr then (answer.map zext8).getD (s.cell kbdrAddr) else s.cell b := by
  cases answer with
  | none =>
    simp only [recordPoll, cell_memWrite, Option.isSome, Option.map, Option.getD]
    split_ifs with h1 h2 <;> simp_all
  | some c =>
    simp only [recordPoll, cell_memWrite, Option.isSome, Option.map, Option.getD]
    split_ifs with h1 h2 <;> simp_all [kbdrAddr, kbsrAddr]

theorem recordPoll_wf {s : State} (h : s.mem.wf) (answer : Option Byte) : (recordPoll answer s).mem.wf := by
  cases answer with
  | none => exact memWrite_wf h _ _
  | some c => exact memWrite_wf (memWrite_wf h _ _) _ _

end Sys2Proof.Machine
end

