-- ==== Sys2Proof/Laws/Ops.lean ====
section
/-! SUPPORT. One lemma per primitive that says everything it can do: the memory read against the relation of R44, the ports against the host's answers (R9, R10, R148), and what all of them leave as it was. -/

namespace Sys2Proof.Machine

open Sys2Proof.Safety

@[simp] theorem Res.bind_done {α β : Type} (a : α) (s : State) (k : α → State → Res β) :
    (Res.done a s).bind k = k a s := rfl

@[simp] theorem Res.bind_ended {α β : Type} (s : State) (k : α → State → Res β) :
    (Res.ended s : Res α).bind k = .ended s := rfl

@[simp] theorem Res.out_done {α : Type} (a : α) (s : State) (k : α → State → Out) :
    (Res.done a s).out k = k a s := rfl

@[simp] theorem Res.out_ended {α : Type} (s : State) (k : α → State → Out) :
    (Res.ended s : Res α).out k = .next s := rfl

/-- The state a primitive leaves, whether the step goes on or ends. -/
def Res.state {α : Type} : Res α → State
  | .done _ s => s
  | .ended s => s

@[simp] theorem Res.state_done {α : Type} (a : α) (s : State) : (Res.done a s).state = s := rfl

@[simp] theorem Res.state_ended {α : Type} (s : State) : (Res.ended s : Res α).state = s := rfl

/-! ### The keyboard -/

theorem kbdPoll_key {s : State} {c : Byte} {k : List KbdAnswer} (h : KeyNext s c k) :
    kbdPoll s = .done (some c) { s with kbd := k } := by
  obtain h | ⟨h, hl, rfl⟩ := h
  · simp [kbdPoll, nextAnswer, h]
  · obtain ⟨rs, p, c', m, rn, f, hd, con, kb, kt, cp⟩ := s
    subst h hl
    rfl

theorem kbdPoll_noKey {s : State} {k : List KbdAnswer} (h : NoKeyNext s k) :
    kbdPoll s = .done none { s with kbd := k } := by
  obtain h | ⟨h, hl, rfl⟩ := h
  · simp [kbdPoll, nextAnswer, h]
  · obtain ⟨rs, p, c', m, rn, f, hd, con, kb, kt, cp⟩ := s
    subst h hl
    rfl

theorem kbdPoll_fails {s : State} {k : List KbdAnswer} (h : KbdFailsNext s k) :
    kbdPoll s = .ended ({ s with kbd := k }.raise .hostIOError) := by
  simp [kbdPoll, nextAnswer, show s.kbd = _ from h]

/-- The host's next answer is a key, no key, or a failure. -/
theorem answer_cases (s : State) :
    (∃ c k, KeyNext s c k) ∨ (∃ k, NoKeyNext s k) ∨ ∃ k, KbdFailsNext s k := by
  rcases hk : s.kbd with _ | ⟨_ | c | _, k⟩
  · rcases hl : s.kbdThen with _ | c
    · exact .inr (.inl ⟨[], .inr ⟨hk, hl, rfl⟩⟩)
    · exact .inl ⟨c, [], .inr ⟨hk, hl, rfl⟩⟩
  · exact .inr (.inl ⟨k, .inl hk⟩)
  · exact .inl ⟨c, k, .inl hk⟩
  · exact .inr (.inr ⟨k, hk⟩)

theorem keyNext_suffix {s : State} {c : Byte} {k : List KbdAnswer} (h : KeyNext s c k) : k <:+ s.kbd := by
  obtain h | ⟨-, -, rfl⟩ := h
  · exact h ▸ List.suffix_cons _ _
  · exact List.nil_suffix

theorem noKeyNext_suffix {s : State} {k : List KbdAnswer} (h : NoKeyNext s k) : k <:+ s.kbd := by
  obtain h | ⟨-, -, rfl⟩ := h
  · exact h ▸ List.suffix_cons _ _
  · exact List.nil_suffix

theorem readAnswer_skip (last : Option Byte) (m : Nat) (k : List KbdAnswer) :
    readAnswer last (List.replicate m .notReady ++ k) = readAnswer last k := by
  induction m with
  | zero => rfl
  | succ m ih => simpa [List.replicate_succ, readAnswer] using ih

theorem kbdRead_gets {s : State} {c : Byte} {k : List KbdAnswer} (h : ReadGets s c k) (w : Hold) :
    kbdRead w s = .done c { s with kbd := k, hold := none } := by
  obtain ⟨m, h | ⟨h, hl, rfl⟩⟩ := h
  · simp [kbdRead, h, readAnswer_skip, readAnswer]
  · have : readAnswer s.kbdThen s.kbd = .got c [] := by
      rw [h, ← List.append_nil (List.replicate m _), readAnswer_skip, hl]; rfl
    simp only [kbdRead, this]

theorem kbdRead_waits {s : State} (h : ReadWaits s) (w : Hold) :
    kbdRead w s = .ended { s with hold := some w } := by
  obtain ⟨⟨m, h⟩, hl⟩ := h
  have : readAnswer s.kbdThen s.kbd = .waits := by
    rw [h, ← List.append_nil (List.replicate m _), readAnswer_skip, hl]; rfl
  simp only [kbdRead, this]

theorem kbdRead_fails {s : State} {k : List KbdAnswer} (h : ReadFailsNext s k) (w : Hold) :
    kbdRead w s = .ended { s with kbd := k, hold := none, fault := some .hostIOError } := by
  obtain ⟨m, h⟩ := h
  simp [kbdRead, h, readAnswer_skip, readAnswer, State.raise]

/-- A blocking read gets a character, waits, or fails. -/
theorem read_cases (s : State) :
    (∃ c k, ReadGets s c k) ∨ ReadWaits s ∨ ∃ k, ReadFailsNext s k := by
  suffices h : ∀ k : List KbdAnswer, (∃ m c k', k = List.replicate m .notReady ++ .key c :: k') ∨
      (∃ m, k = List.replicate m .notReady) ∨ ∃ m k', k = List.replicate m .notReady ++ .fails :: k' by
    obtain ⟨m, c, k, h⟩ | ⟨m, h⟩ | ⟨m, k, h⟩ := h s.kbd
    · exact .inl ⟨c, k, m, .inl h⟩
    · rcases hl : s.kbdThen with _ | c
      · exact .inr (.inl ⟨⟨m, h⟩, hl⟩)
      · exact .inl ⟨c, [], m, .inr ⟨h, hl, rfl⟩⟩
    · exact .inr (.inr ⟨k, m, h⟩)
  intro k
  induction k with
  | nil => exact .inr (.inl ⟨0, rfl⟩)
  | cons a k ih =>
    cases a with
    | key c => exact .inl ⟨0, c, k, rfl⟩
    | fails => exact .inr (.inr ⟨0, k, rfl⟩)
    | notReady =>
      obtain ⟨m, c, k', rfl⟩ | ⟨m, rfl⟩ | ⟨m, k', rfl⟩ := ih
      · exact .inl ⟨m + 1, c, k', rfl⟩
      · exact .inr (.inl ⟨m + 1, rfl⟩)
      · exact .inr (.inr ⟨m + 1, k', rfl⟩)

/-! ### Reads of memory -/

/-- `MemRead` does what the relation of R44 says. -/
theorem memRead_of_readOf {s u : State} {a v : Word} (h : ReadOf s a v u) : memRead a s = .done v u := by
  cases h with
  | plain h => exact if_neg h
  | key h hk => simp [memRead, kbsrAddr, kbdrAddr, h, kbdPoll_key hk, recordPoll, kbsrReady, zext8]
  | noKey h hk => simp [memRead, kbsrAddr, h, kbdPoll_noKey hk, recordPoll]

/-- `MemRead` fails where the poll does. -/
theorem memRead_of_readFails {s u : State} {a : Word} (h : ReadFails s a u) : memRead a s = .ended u := by
  cases h with
  | poll h hk => simp [memRead, kbsrAddr, h, kbdPoll_fails hk, State.raise]

/-- The two relations cover every read. -/
theorem readOf_or_readFails (s : State) (a : Word) : (∃ v u, ReadOf s a v u) ∨ ∃ u, ReadFails s a u := by
  by_cases h : a = 0xFE00
  · obtain ⟨c, k, hk⟩ | ⟨k, hk⟩ | ⟨k, hk⟩ := answer_cases s
    · exact .inl ⟨_, _, .key h hk⟩
    · exact .inl ⟨_, _, .noKey h hk⟩
    · exact .inr ⟨_, .poll h hk⟩
  · exact .inl ⟨_, _, .plain h⟩

/-- Everything `MemRead` can do when the step goes on. -/
theorem memRead_done {s u : State} {a v : Word} (h : memRead a s = .done v u) : ReadOf s a v u := by
  obtain ⟨v', u', hr⟩ | ⟨u', hr⟩ := readOf_or_readFails s a
  · rw [memRead_of_readOf hr] at h
    obtain ⟨rfl, rfl⟩ := Res.done.inj h
    exact hr
  · rw [memRead_of_readFails hr] at h
    cases h

/-- Everything `MemRead` can do when the step ends in it. -/
theorem memRead_ended {s u : State} {a : Word} (h : memRead a s = .ended u) : ReadFails s a u := by
  obtain ⟨v', u', hr⟩ | ⟨u', hr⟩ := readOf_or_readFails s a
  · rw [memRead_of_readOf hr] at h
    cases h
  · rw [memRead_of_readFails hr] at h
    cases Res.ended.inj h
    exact hr

/-! ### The console -/

theorem conWrite_takes {s : State} (h : ConTakes s 1) (b : Byte) : conWrite b s = .done () (written s [b]) := by
  rcases hp : s.conPort with _ | ⟨_ | _, k⟩
  · simp [conWrite, hp, written]
  · simp [conWrite, hp, written]
  · have := h .fails (by simp [hp])
    cases this

theorem conTakes_tail {s : State} {n : Nat} (h : ConTakes s (n + 1)) (b : Byte) : ConTakes (written s [b]) n := by
  rcases hp : s.conPort with _ | ⟨x, k⟩
  · simp [ConTakes, written, hp]
  · intro y hy
    exact h y (by simp [written, hp] at hy ⊢; exact .inr hy)

theorem conTakes_mono {s : State} {m n : Nat} (h : ConTakes s n) (hm : m ≤ n) : ConTakes s m :=
  fun x hx => h x ((List.take_prefix_take_left hm).subset hx)

theorem written_cons (s : State) (b : Byte) (bs : List Byte) :
    written (written s [b]) bs = written s (b :: bs) := by
  simp [written, Nat.add_comm]

@[simp] theorem written_nil (s : State) : written s [] = s := by simp [written]

/-- Every byte is taken: they are on the console, in order (R10). -/
theorem conWriteAll_takes {s : State} {bs : List Byte} (h : ConTakes s bs.length) :
    conWriteAll bs s = .done () (written s bs) := by
  induction bs generalizing s with
  | nil => simp [conWriteAll]
  | cons b bs ih =>
    rw [conWriteAll, conWrite_takes (conTakes_mono h (by simp)), Res.bind_done, ih (conTakes_tail h b), written_cons]

/-- A write fails: the bytes before it are on the console, and `HostIOError` is raised (R146, R148). -/
theorem conWriteAll_fails {s : State} {bs : List Byte} {n : Nat} (hn : n < bs.length) (h : ConFailsAt s n) :
    conWriteAll bs s = .ended (writeFailed s (bs.take n)) := by
  induction bs generalizing s n with
  | nil => simp at hn
  | cons b bs ih =>
    obtain ⟨ht, hf⟩ := h
    cases n with
    | zero =>
      rcases hp : s.conPort with _ | ⟨x, k⟩
      · simp [hp] at hf
      · have : x = .fails := by simpa [hp] using hf
        simp [conWriteAll, conWrite, hp, this, writeFailed, State.raise]
    | succ n =>
      have hf' : ConFailsAt (written s [b]) n := by
        refine ⟨conTakes_tail ht b, ?_⟩
        rcases hp : s.conPort with _ | ⟨x, k⟩
        · simp [hp] at hf
        · simpa [written, hp] using hf
      rw [conWriteAll, conWrite_takes (conTakes_mono ht (by simp)), Res.bind_done, ih (by simpa using hn) hf']
      have hn : n < bs.length := by simpa using hn
      simp [writeFailed, written, Nat.min_eq_left hn.le, Nat.add_comm]

/-- The next `n` writes are all taken, or one of them fails. -/
theorem con_cases (s : State) (n : Nat) : ConTakes s n ∨ ∃ m, m < n ∧ ConFailsAt s m := by
  induction n with
  | zero => exact .inl (by simp [ConTakes])
  | succ n ih =>
    obtain h | ⟨m, hm, h⟩ := ih
    · rcases hx : s.conPort[n]? with _ | _ | _
      · refine .inl fun y hy => h y ?_
        rwa [List.take_add_one, hx, Option.toList_none, List.append_nil] at hy
      · refine .inl fun y hy => ?_
        rw [List.take_add_one, hx] at hy
        rcases List.mem_append.1 hy with hy | hy
        · exact h y hy
        · simpa using hy
      · exact .inr ⟨n, by omega, h, hx⟩
    · exact .inr ⟨m, by omega, h⟩

/-! ### What every primitive of the ports and of memory reads leaves as it was -/

/-- Registers, `pc`, `cond` and `run` are as they were, cells but the keyboard's two too; the console has only
grown, the host's answers have only been taken; the memory is still canonical. -/
structure Quiet (s u : State) : Prop where
  regs : u.regs = s.regs
  pc : u.pc = s.pc
  cond : u.cond = s.cond
  run : u.run = s.run
  kbdThen : u.kbdThen = s.kbdThen
  console : s.console <+: u.console
  kbd : u.kbd <:+ s.kbd
  conPort : u.conPort <:+ s.conPort
  cells : ∀ b, b ≠ 0xFE00 → b ≠ 0xFE02 → u.cell b = s.cell b
  wf : s.mem.wf → u.mem.wf

theorem Quiet.refl (s : State) : Quiet s s :=
  ⟨rfl, rfl, rfl, rfl, rfl, List.prefix_rfl, List.suffix_rfl, List.suffix_rfl, fun _ _ _ => rfl, id⟩

theorem Quiet.trans {s u t : State} (h : Quiet s u) (g : Quiet u t) : Quiet s t :=
  ⟨g.regs.trans h.regs, g.pc.trans h.pc, g.cond.trans h.cond, g.run.trans h.run, g.kbdThen.trans h.kbdThen,
    h.console.trans g.console, g.kbd.trans h.kbd, g.conPort.trans h.conPort,
    fun b h1 h2 => (g.cells b h1 h2).trans (h.cells b h1 h2), g.wf ∘ h.wf⟩

theorem Quiet.reg {s u : State} (h : Quiet s u) (r : Reg) : u.reg r = s.reg r := by
  simp only [State.reg, h.regs]

theorem readOf_quiet {s u : State} {a v : Word} (h : ReadOf s a v u) : Quiet s u := by
  cases h with
  | plain h => exact .refl s
  | key h hk =>
    exact ⟨rfl, rfl, rfl, rfl, rfl, List.prefix_rfl, keyNext_suffix hk, List.suffix_rfl,
      fun b h1 h2 => by simp only [cell_memWrite, h1, h2, if_false]; rfl,
      fun hw => memWrite_wf (memWrite_wf (s := { s with kbd := _ }) hw _ _) _ _⟩
  | noKey h hk =>
    exact ⟨rfl, rfl, rfl, rfl, rfl, List.prefix_rfl, noKeyNext_suffix hk, List.suffix_rfl,
      fun b h1 h2 => by simp only [cell_memWrite, h1, if_false]; rfl,
      fun hw => memWrite_wf (s := { s with kbd := _ }) hw _ _⟩

/-- A read that goes on touches neither the fault status nor the hold nor the console. -/
theorem readOf_control {s u : State} {a v : Word} (h : ReadOf s a v u) :
    u.fault = s.fault ∧ u.hold = s.hold ∧ u.console = s.console ∧ u.conPort = s.conPort := by
  cases h <;> exact ⟨rfl, rfl, rfl, rfl⟩

theorem readFails_quiet {s u : State} {a : Word} (h : ReadFails s a u) : Quiet s u := by
  cases h with
  | poll h hk =>
    exact ⟨rfl, rfl, rfl, rfl, rfl, List.prefix_rfl, ⟨[.fails], (show s.kbd = _ from hk).symm⟩, List.suffix_rfl,
      fun _ _ _ => rfl, id⟩

theorem readFails_control {s u : State} {a : Word} (h : ReadFails s a u) :
    u.fault = some .hostIOError ∧ u.hold = s.hold ∧ u.mem = s.mem ∧ u.console = s.console ∧ u.conPort = s.conPort := by
  cases h; exact ⟨rfl, rfl, rfl, rfl, rfl⟩

theorem quiet_written (s : State) (bs : List Byte) : Quiet s (written s bs) :=
  ⟨rfl, rfl, rfl, rfl, rfl, List.prefix_append _ _, List.suffix_rfl, List.drop_suffix _ _, fun _ _ _ => rfl, id⟩

theorem quiet_writeFailed (s : State) (bs : List Byte) : Quiet s (writeFailed s bs) :=
  ⟨rfl, rfl, rfl, rfl, rfl, List.prefix_append _ _, List.suffix_rfl, List.drop_suffix _ _, fun _ _ _ => rfl, id⟩

theorem readGets_quiet {s : State} {c : Byte} {k : List KbdAnswer} (h : ReadGets s c k) :
    Quiet s { s with kbd := k, hold := none } := by
  refine ⟨rfl, rfl, rfl, rfl, rfl, List.prefix_rfl, ?_, List.suffix_rfl, fun _ _ _ => rfl, id⟩
  obtain ⟨m, h | ⟨h, -, rfl⟩⟩ := h
  · exact h ▸ (List.suffix_cons _ _).trans (List.suffix_append _ _)
  · exact List.nil_suffix

theorem readFailsNext_quiet {s : State} {k : List KbdAnswer} (h : ReadFailsNext s k) :
    Quiet s { s with kbd := k, hold := none, fault := some .hostIOError } := by
  refine ⟨rfl, rfl, rfl, rfl, rfl, List.prefix_rfl, ?_, List.suffix_rfl, fun _ _ _ => rfl, id⟩
  obtain ⟨m, h⟩ := h
  exact h ▸ (List.suffix_cons _ _).trans (List.suffix_append _ _)

/-- Only the hold differs. -/
theorem quiet_hold (s : State) (h : Option Hold) : Quiet s { s with hold := h } :=
  ⟨rfl, rfl, rfl, rfl, rfl, List.prefix_rfl, List.suffix_rfl, List.suffix_rfl, fun _ _ _ => rfl, id⟩

end Sys2Proof.Machine
end

