-- ==== Sys2Proof/Laws/Scan.lean ====
section
/-! SUPPORT. What the string scan of `PUTS` and `PUTSP` can do: what it leaves as it was, and that it is the scan of the rule wherever the keyboard input is not endless. -/

namespace Sys2Proof.Machine

open Sys2Proof.Safety

theorem conWriteAll_quiet (bs : List Byte) (s : State) : Quiet s (conWriteAll bs s).state := by
  obtain h | ⟨n, hn, h⟩ := con_cases s bs.length
  · rw [conWriteAll_takes h]; exact quiet_written s bs
  · rw [conWriteAll_fails hn h]; exact quiet_writeFailed s _

theorem memRead_quiet (a : Word) (s : State) : Quiet s (memRead a s).state := by
  obtain ⟨v, u, h⟩ | ⟨u, h⟩ := readOf_or_readFails s a
  · rw [memRead_of_readOf h]; exact readOf_quiet h
  · rw [memRead_of_readFails h]; exact readFails_quiet h

/-- How a scan ends: done, with the fault status and the hold as they were; failed, by the host; or held,
at its bound. -/
def ScanEnd (h : Word → Hold) (s : State) (r : Res Unit) : Prop :=
  (∃ u, r = .done () u ∧ u.fault = s.fault ∧ u.hold = s.hold) ∨
  (∃ u, r = .ended u ∧ u.fault = some .hostIOError ∧ u.hold = s.hold) ∨
  (∃ u a, r = .ended u ∧ u.fault = s.fault ∧ u.hold = some (h a))

theorem scan_quiet (h : Word → Hold) (emit : Word → List Byte) (n : Nat) (a : Word) (s : State) :
    Quiet s (scan h emit n a s).state ∧ ScanEnd h s (scan h emit n a s) := by
  induction n generalizing a s with
  | zero => exact ⟨quiet_hold s _, .inr (.inr ⟨_, a, rfl, rfl, rfl⟩)⟩
  | succ n ih =>
    obtain ⟨v, u, hr⟩ | ⟨u, hr⟩ := readOf_or_readFails s a
    · obtain ⟨hf, hh, -, -⟩ := readOf_control hr
      simp only [scan, memRead_of_readOf hr, Res.bind_done]
      split
      next => exact ⟨readOf_quiet hr, .inl ⟨u, rfl, hf, hh⟩⟩
      next hv =>
        obtain hc | ⟨m, hm, hc⟩ := con_cases u (emit v).length
        · rw [conWriteAll_takes hc, Res.bind_done]
          obtain ⟨hq, he⟩ := ih (a + 1) (written u (emit v))
          refine ⟨((readOf_quiet hr).trans (quiet_written _ _)).trans hq, ?_⟩
          obtain ⟨w, h1, h2, h3⟩ | ⟨w, h1, h2, h3⟩ | ⟨w, b, h1, h2, h3⟩ := he
          · exact .inl ⟨w, h1, h2.trans hf, h3.trans hh⟩
          · exact .inr (.inl ⟨w, h1, h2, h3.trans hh⟩)
          · exact .inr (.inr ⟨w, b, h1, h2.trans hf, h3⟩)
        · rw [conWriteAll_fails hm hc, Res.bind_ended]
          exact ⟨(readOf_quiet hr).trans (quiet_writeFailed _ _), .inr (.inl ⟨_, rfl, rfl, hh⟩)⟩
    · simp only [scan, memRead_of_readFails hr, Res.bind_ended]
      exact ⟨readFails_quiet hr, .inr (.inl ⟨u, rfl, (readFails_control hr).1, (readFails_control hr).2.1⟩)⟩

/-- One address on, then `n` more. -/
theorem word_add_succ (a : Word) (n : Nat) : a + 1 + BitVec.ofNat 16 n = a + BitVec.ofNat 16 (n + 1) := by
  rw [BitVec.add_assoc]
  congr 1
  apply BitVec.eq_of_toNat_eq
  simp [Nat.add_comm]

theorem kbsr_distance_succ {a : Word} (h : a ≠ 0xFE00) :
    (kbsrAddr - (a + 1)).toNat + 1 = (kbsrAddr - a).toNat := by
  simp only [kbsrAddr] at *
  bv_omega

/-- A scan is the scan of the rule to its end, or it has gone on for all its reads and is held there. -/
theorem scan_cases (h : Word → Hold) (emit : Word → List Byte) (n : Nat) (a : Word) (s : State) :
    (∃ t, ScanRun emit a s t ∧ (scan h emit n a s = .done () t ∨ scan h emit n a s = .ended t) ∧ t.hold = s.hold) ∨
    ∃ u, ScanGoes emit n a s u ∧ scan h emit n a s = .ended { u with hold := some (h (a + BitVec.ofNat 16 n)) } := by
  induction n generalizing a s with
  | zero => exact .inr ⟨s, .zero a s, by simp [scan]⟩
  | succ n ih =>
    obtain ⟨v, u, hr⟩ | ⟨u, hr⟩ := readOf_or_readFails s a
    · simp only [scan, memRead_of_readOf hr, Res.bind_done]
      split
      next hv => exact .inl ⟨u, .stop (hv ▸ hr), .inl rfl, (readOf_control hr).2.1⟩
      next hv =>
        obtain hc | ⟨m, hm, hc⟩ := con_cases u (emit v).length
        · rw [conWriteAll_takes hc, Res.bind_done]
          obtain ⟨t, ht, he, hh⟩ | ⟨t, ht, he⟩ := ih (a + 1) (written u (emit v))
          · exact .inl ⟨t, .more hr hv hc ht, he, hh.trans (readOf_control hr).2.1⟩
          · exact .inr ⟨t, .more hr hv hc ht, by rw [he, word_add_succ]⟩
        · rw [conWriteAll_fails hm hc, Res.bind_ended]
          exact .inl ⟨_, .writeFails hr hv hm hc, .inr rfl, (readOf_control hr).2.1⟩
    · simp only [scan, memRead_of_readFails hr, Res.bind_ended]
      exact .inl ⟨u, .readFails hr, .inr rfl, (readFails_control hr).2.1⟩

/-- Where the keyboard input ends, a scan with enough reads to spare is the scan of the rule, to its end. -/
theorem scan_runs (h : Word → Hold) (emit : Word → List Byte) (n : Nat) (a : Word) (s : State)
    (hl : s.kbdThen = none) (hn : 65536 * s.kbd.length + (kbsrAddr - a).toNat + 1 ≤ n) :
    ∃ t, ScanRun emit a s t ∧ (scan h emit n a s = .done () t ∨ scan h emit n a s = .ended t) ∧
      t.hold = s.hold := by
  induction n generalizing a s with
  | zero => omega
  | succ n ih =>
    obtain ⟨v, u, hr⟩ | ⟨u, hr⟩ := readOf_or_readFails s a
    · simp only [scan, memRead_of_readOf hr, Res.bind_done]
      by_cases hv : v = 0
      · subst hv
        exact ⟨u, .stop hr, .inl (by simp), (readOf_control hr).2.1⟩
      · rw [if_neg hv]
        obtain hc | ⟨m, hm, hc⟩ := con_cases u (emit v).length
        · rw [conWriteAll_takes hc, Res.bind_done]
          have hm : 65536 * (written u (emit v)).kbd.length + (kbsrAddr - (a + 1)).toNat + 1 ≤ n := by
            show 65536 * u.kbd.length + (kbsrAddr - (a + 1)).toNat + 1 ≤ n
            cases hr with
            | plain ha => have := kbsr_distance_succ ha; omega
            | noKey ha hk => exact absurd rfl hv
            | key ha hk =>
              obtain hk | ⟨-, hk, -⟩ := hk
              · have : (kbsrAddr - (a + 1)).toNat = 65535 := by subst ha; decide
                simp only [hk, List.length_cons] at hn
                simp only [memWrite_kbd]
                omega
              · rw [hl] at hk; cases hk
          obtain ⟨t, ht, he, hh⟩ := ih (a + 1) (written u (emit v)) ((readOf_quiet hr).kbdThen.trans hl) hm
          exact ⟨t, .more hr hv hc ht, he, hh.trans (readOf_control hr).2.1⟩
        · rw [conWriteAll_fails hm hc, Res.bind_ended]
          exact ⟨_, .writeFails hr hv hm hc, .inr rfl, (readOf_control hr).2.1⟩
    · simp only [scan, memRead_of_readFails hr, Res.bind_ended]
      exact ⟨u, .readFails hr, .inr rfl, (readFails_control hr).2.1⟩

/-- The bound of `scanString` is enough for that. -/
theorem scanBound_enough (a : Word) (s : State) :
    65536 * s.kbd.length + (kbsrAddr - a).toNat + 1 ≤ scanBound s := by
  have := (kbsrAddr - a).isLt
  unfold scanBound
  omega

theorem putsBytes_eq (w : Word) : putsBytes w = putsText w := by
  simp only [putsBytes, putsText, lowByte]
  congr 1
  apply BitVec.eq_of_toNat_eq
  simp [BitVec.extractLsb'_toNat]

theorem putspBytes_eq (w : Word) : putspBytes w = putspText w := by
  have hlow : lowByte w = BitVec.ofNat 8 (w.toNat % 256) := by
    apply BitVec.eq_of_toNat_eq
    simp [lowByte, BitVec.extractLsb'_toNat]
  have hhigh : highByte w = BitVec.ofNat 8 (w.toNat / 256) := by
    apply BitVec.eq_of_toNat_eq
    simp [highByte, BitVec.extractLsb'_toNat, Nat.shiftRight_eq_div_pow]
  have hz : highByte w = 0 ↔ w.toNat / 256 = 0 := by
    rw [hhigh, ← BitVec.toNat_inj]
    have := w.isLt
    have h0 : (0 : Byte).toNat = 0 := rfl
    rw [h0, BitVec.toNat_ofNat]
    omega
  simp only [putspBytes, putspText, hz]
  split <;> simp [hlow, hhigh]

end Sys2Proof.Machine
end

