-- ==== Sys2Proof/Laws/Exec.lean ====
section
/-! SUPPORT. What the meanings and the step can do, by cases (one inversion lemma each): the provers' proofs over all instructions cite these and do not unfold the meanings. -/

namespace Sys2Proof.Machine

open Sys2Proof.Safety

theorem next_inj {s t : State} (h : (.next s : Out) = .next t) : s = t := Host.Outcome.next.inj h

/-- A step's part that begins with a read of memory. -/
theorem memRead_out_cases {a : Word} {s t : State} {k : Word → State → Out}
    (h : (memRead a s).out k = .next t) :
    (∃ v u, ReadOf s a v u ∧ k v u = .next t) ∨ ReadFails s a t := by
  obtain ⟨v, u, hr⟩ | ⟨u, hr⟩ := readOf_or_readFails s a
  · rw [memRead_of_readOf hr] at h
    exact .inl ⟨v, u, hr, h⟩
  · rw [memRead_of_readFails hr] at h
    exact .inr (next_inj h ▸ hr)

theorem execLd_cases {dr : Reg} {o : BitVec 9} {s t : State} (h : execLd dr o s = .next t) :
    (∃ v u, ReadOf s (s.pcRel9 o) v u ∧ t = u.setResult dr v) ∨ ReadFails s (s.pcRel9 o) t := by
  obtain ⟨v, u, hr, hk⟩ | hr := memRead_out_cases h
  · exact .inl ⟨v, u, hr, (next_inj hk).symm⟩
  · exact .inr hr

theorem execLdr_cases {dr b : Reg} {o : BitVec 6} {s t : State} (h : execLdr dr b o s = .next t) :
    (∃ v u, ReadOf s (s.baseOff b o) v u ∧ t = u.setResult dr v) ∨ ReadFails s (s.baseOff b o) t := by
  obtain ⟨v, u, hr, hk⟩ | hr := memRead_out_cases h
  · exact .inl ⟨v, u, hr, (next_inj hk).symm⟩
  · exact .inr hr

theorem execLdi_cases {dr : Reg} {o : BitVec 9} {s t : State} (h : execLdi dr o s = .next t) :
    (∃ p u v w, ReadOf s (s.pcRel9 o) p u ∧ ReadOf u p v w ∧ t = w.setResult dr v) ∨
    (∃ p u, ReadOf s (s.pcRel9 o) p u ∧ ReadFails u p t) ∨ ReadFails s (s.pcRel9 o) t := by
  unfold execLdi at h
  obtain ⟨p, u, hr⟩ | ⟨u, hr⟩ := readOf_or_readFails s (s.pcRel9 o)
  · rw [memRead_of_readOf hr, Res.bind_done] at h
    obtain ⟨v, w, hg, hk⟩ | hg := memRead_out_cases h
    · exact .inl ⟨p, u, v, w, hr, hg, (next_inj hk).symm⟩
    · exact .inr (.inl ⟨p, u, hr, hg⟩)
  · rw [memRead_of_readFails hr] at h
    exact .inr (.inr (next_inj h ▸ hr))

theorem execSti_cases {sr : Reg} {o : BitVec 9} {s t : State} (h : execSti sr o s = .next t) :
    (∃ p u, ReadOf s (s.pcRel9 o) p u ∧ t = memWrite p (u.reg sr) u) ∨ ReadFails s (s.pcRel9 o) t := by
  obtain ⟨v, u, hr, hk⟩ | hr := memRead_out_cases h
  · exact .inl ⟨v, u, hr, (next_inj hk).symm⟩
  · exact .inr hr

/-- A routine's part that begins with console writes. -/
theorem conWriteAll_out_cases {bs : List Byte} {s t : State} {k : Unit → State → Out}
    (h : (conWriteAll bs s).out k = .next t) :
    (ConTakes s bs.length ∧ k () (written s bs) = .next t) ∨
    ∃ n, n < bs.length ∧ ConFailsAt s n ∧ t = writeFailed s (bs.take n) := by
  obtain hc | ⟨n, hn, hc⟩ := con_cases s bs.length
  · rw [conWriteAll_takes hc] at h
    exact .inl ⟨hc, h⟩
  · rw [conWriteAll_fails hn hc] at h
    exact .inr ⟨n, hn, hc, (next_inj h).symm⟩

/-- A single console write is the write of one byte. -/
theorem conWrite_eq (b : Byte) (s : State) : conWrite b s = conWriteAll [b] s := by
  simp only [conWriteAll, Res.bind]
  cases conWrite b s <;> rfl

theorem getcFromRead_cases {s t : State} (h : getcFromRead s = .next t) :
    (∃ c k, ReadGets s c k ∧ t = State.setResult { s with kbd := k, hold := none } Reg.arg (zext8 c)) ∨
    (ReadWaits s ∧ t = { s with hold := some .getc }) ∨
    ∃ k, ReadFailsNext s k ∧ t = { s with kbd := k, hold := none, fault := some .hostIOError } := by
  unfold getcFromRead at h
  obtain ⟨c, k, hr⟩ | hr | ⟨k, hr⟩ := read_cases s
  · rw [kbdRead_gets hr] at h
    exact .inl ⟨c, k, hr, (next_inj h).symm⟩
  · rw [kbdRead_waits hr] at h
    exact .inr (.inl ⟨hr, (next_inj h).symm⟩)
  · rw [kbdRead_fails hr] at h
    exact .inr (.inr ⟨k, hr, (next_inj h).symm⟩)

theorem inFromRead_cases {s t : State} (h : inFromRead s = .next t) :
    (∃ c k, ReadGets s c k ∧ ConTakes s 1 ∧
      t = (written { s with kbd := k, hold := none } [c]).setResult Reg.arg (zext8 c)) ∨
    (∃ c k, ReadGets s c k ∧ ConFailsAt s 0 ∧ t = writeFailed { s with kbd := k, hold := none } []) ∨
    (ReadWaits s ∧ t = { s with hold := some .inChar }) ∨
    ∃ k, ReadFailsNext s k ∧ t = { s with kbd := k, hold := none, fault := some .hostIOError } := by
  unfold inFromRead at h
  obtain ⟨c, k, hr⟩ | hr | ⟨k, hr⟩ := read_cases s
  · rw [kbdRead_gets hr, Res.out_done, conWrite_eq] at h
    obtain ⟨hc, hk⟩ | ⟨n, hn, hc, rfl⟩ := conWriteAll_out_cases h
    · exact .inl ⟨c, k, hr, hc, (next_inj hk).symm⟩
    · have : n = 0 := by simpa using hn
      subst this
      exact .inr (.inl ⟨c, k, hr, hc, rfl⟩)
  · rw [kbdRead_waits hr] at h
    exact .inr (.inr (.inl ⟨hr, (next_inj h).symm⟩))
  · rw [kbdRead_fails hr] at h
    exact .inr (.inr (.inr ⟨k, hr, (next_inj h).symm⟩))

/-- How a scan routine ends: quietly, with the hold set only where it came to its bound. -/
def ScanOut (h : Word → Hold) (s t : State) : Prop :=
  Quiet s t ∧ ((t.fault = s.fault ∧ t.hold = none) ∨ (t.fault = some .hostIOError ∧ t.hold = none) ∨
    (t.fault = s.fault ∧ ∃ a, t.hold = some (h a)))

theorem scanString_out {h : Word → Hold} {emit : Word → List Byte} {a : Word} {s t : State}
    (ht : (scanString h emit a s).out (fun _ u => .next u) = .next t) : ScanOut h s t := by
  obtain ⟨hq, he⟩ := scan_quiet h emit (scanBound s) a { s with hold := none }
  unfold scanString at ht
  obtain ⟨u, h1, h2, h3⟩ | ⟨u, h1, h2, h3⟩ | ⟨u, b, h1, h2, h3⟩ := he
  · rw [h1] at ht hq
    rw [← next_inj ht]
    exact ⟨(quiet_hold s none).trans hq, .inl ⟨h2, h3⟩⟩
  · rw [h1] at ht hq
    rw [← next_inj ht]
    exact ⟨(quiet_hold s none).trans hq, .inr (.inl ⟨h2, h3⟩)⟩
  · rw [h1] at ht hq
    rw [← next_inj ht]
    exact ⟨(quiet_hold s none).trans hq, .inr (.inr ⟨h2, b, h3⟩)⟩

theorem putsFrom_cases {a : Word} {s t : State} (h : putsFrom a s = .next t) : ScanOut .puts s t :=
  scanString_out h

theorem putspFrom_cases {a : Word} {s t : State} (h : putspFrom a s = .next t) : ScanOut .putsp s t :=
  scanString_out h

theorem execTrapOut_cases {s t : State} (h : execTrapOut s = .next t) :
    (ConTakes s 1 ∧ t = written (enterTrap s) [lowByte (s.reg 0)]) ∨
    (ConFailsAt s 0 ∧ t = writeFailed (enterTrap s) []) := by
  unfold execTrapOut at h
  rw [conWrite_eq, reg_enterTrap_arg] at h
  obtain ⟨hc, hk⟩ | ⟨n, hn, hc, rfl⟩ := conWriteAll_out_cases h
  · exact .inl ⟨hc, (next_inj hk).symm⟩
  · have : n = 0 := by simpa using hn
    subst this
    exact .inr ⟨hc, rfl⟩

theorem execTrapHalt_cases {s t : State} (h : execTrapHalt s = .next t) :
    (ConTakes s 5 ∧ t = { written (enterTrap s) haltMessage with run := false }) ∨
    ∃ n, n < 5 ∧ ConFailsAt s n ∧ t = writeFailed (enterTrap s) (haltMessage.take n) := by
  obtain ⟨hc, hk⟩ | ⟨n, hn, hc, rfl⟩ := conWriteAll_out_cases h
  · exact .inl ⟨hc, (next_inj hk).symm⟩
  · exact .inr ⟨n, hn, hc, rfl⟩

theorem execTrapIn_cases {s t : State} (h : execTrapIn s = .next t) :
    (ConTakes s 19 ∧ inFromRead (written (enterTrap s) inPrompt) = .next t) ∨
    ∃ n, n < 19 ∧ ConFailsAt s n ∧ t = writeFailed (enterTrap s) (inPrompt.take n) := by
  obtain ⟨hc, hk⟩ | ⟨n, hn, hc, rfl⟩ := conWriteAll_out_cases h
  · exact .inl ⟨hc, hk⟩
  · exact .inr ⟨n, hn, hc, rfl⟩

/-- Everything a step can be: the frozen state of a stopped core; a held routine going on; a fetch that fails;
or the instruction of the word fetched, with `pc` incremented. -/
theorem step_cases {s t : State} (h : step s = .next t) :
    (s.stopped = true ∧ t = s) ∨
    (s.stopped = false ∧ ∃ w, s.hold = some w ∧ resume w s = .next t) ∨
    (s.stopped = false ∧ s.hold = none ∧ ReadFails s s.pc t) ∨
    (s.stopped = false ∧ s.hold = none ∧ ∃ w u, ReadOf s s.pc w u ∧
      exec (decode w) (u.setPc (u.pc + 1)) = .next t) := by
  unfold step cycle at h
  cases hs : s.stopped
  · rw [hs] at h
    rcases hh : s.hold with _ | w
    · simp only [hh, Bool.false_eq_true, if_false] at h
      unfold fetch at h
      obtain ⟨v, u, hr⟩ | ⟨u, hr⟩ := readOf_or_readFails s s.pc
      · rw [memRead_of_readOf hr] at h
        exact .inr (.inr (.inr ⟨rfl, rfl, v, u, hr, h⟩))
      · rw [memRead_of_readFails hr] at h
        exact .inr (.inr (.inl ⟨rfl, rfl, next_inj h ▸ hr⟩))
    · simp only [hh, Bool.false_eq_true, if_false] at h
      exact .inr (.inl ⟨rfl, w, rfl, h⟩)
  · rw [hs, if_pos rfl] at h
    exact .inl ⟨rfl, (next_inj h).symm⟩

theorem stopped_iff (s : State) : s.stopped = true ↔ s.run = false ∨ s.fault ≠ none := by
  unfold State.stopped
  cases s.run <;> cases s.fault <;> simp

theorem not_stopped_iff (s : State) : s.stopped = false ↔ s.run = true ∧ s.fault = none := by
  unfold State.stopped
  cases s.run <;> cases s.fault <;> simp

/-- The step of a core that holds a routine. -/
theorem step_of_held {s : State} {w : Hold} (hr : s.run = true) (hf : s.fault = none) (hh : s.hold = some w) :
    step s = resume w s := by
  simp only [step, cycle, (not_stopped_iff s).2 ⟨hr, hf⟩, hh, Bool.false_eq_true, if_false]

end Sys2Proof.Machine
end

