-- ==== Sys2Proof/Laws/Effect.lean ====
section
/-! SUPPORT. Everything an instruction can do, said once for all of them: the relation `Effect`, and that `exec` and a resumed routine answer nothing outside it. Proofs over all instructions go by cases on it. -/

namespace Sys2Proof.Machine

open Sys2Proof.Safety

/-- What is done before the instruction's last effect: memory is read and the ports are used, only by the
instructions that do so. -/
structure Before (i : Instr) (s u : State) : Prop where
  quiet : Quiet s u
  mem : readsMemory i = false → u.mem = s.mem
  con : writesConsole i = false → u.console = s.console ∧ u.conPort = s.conPort

/-- The hold is as it was, or a trap routine has none. -/
def Unheld (i : Instr) (s u : State) : Prop := u.hold = s.hold ∨ (isTrap i = true ∧ u.hold = none)

/-- What the instruction `i` can make of the state `s`, in which a trap has been entered. -/
inductive Effect (i : Instr) (s : State) : State → Prop where
  | result {u : State} {dr : Reg} (v : Word) (hd : setsCondFrom i = some dr) (hb : Before i s u)
      (hf : u.fault = s.fault) (hh : Unheld i s u) : Effect i s (u.setResult dr v)
  | plain {u : State} (hd : setsCondFrom i = none) (hb : Before i s u) (hf : u.fault = s.fault)
      (hh : Unheld i s u) (hi : i ≠ .trapHalt) : Effect i s u
  | goes (p : Word) (hi : writesPc i = true) : Effect i s (s.setPc p)
  | calls (p : Word) (hi : writesPc i = true) (h7 : writesReg i = fun r => r == 7) :
      Effect i s ((s.setReg 7 s.pc).setPc p)
  | stores {u : State} (a v : Word) (hi : storesWord i = true) (hb : Before i s u) (hf : u.fault = s.fault)
      (hh : u.hold = s.hold) : Effect i s (memWrite a v u)
  | halts {u : State} (hi : i = .trapHalt) (hb : Before i s u) (hf : u.fault = s.fault) (hh : u.hold = s.hold)
      (hc : u.console = s.console ++ haltMessage) : Effect i s { u with run := false }
  | badVector (v : BitVec 8) (hi : i = .trapOther v) : Effect i s (s.raise (.invalidTrapvect v))
  | fails {u : State} (hb : Before i s u) (hf : u.fault = some .hostIOError) (hh : Unheld i s u) : Effect i s u
  | held {u : State} (hb : Before i s u) (hf : u.fault = s.fault) (ht : isTrap i = true) (hd : ∃ w, u.hold = some w) :
      Effect i s u

theorem Before.refl (i : Instr) (s : State) : Before i s s := ⟨.refl s, fun _ => rfl, fun _ => ⟨rfl, rfl⟩⟩

theorem before_readOf {i : Instr} (hi : readsMemory i = true) {s u : State} {a v : Word} (h : ReadOf s a v u) :
    Before i s u :=
  ⟨readOf_quiet h, by simp [hi], fun _ => (readOf_control h).2.2⟩

theorem before_readFails {i : Instr} (hi : readsMemory i = true) {s u : State} {a : Word} (h : ReadFails s a u) :
    Before i s u :=
  ⟨readFails_quiet h, by simp [hi], fun _ => (readFails_control h).2.2.2⟩

theorem Before.trans {i : Instr} {s u t : State} (h : Before i s u) (g : Before i u t) : Before i s t :=
  ⟨h.quiet.trans g.quiet, fun hn => (g.mem hn).trans (h.mem hn),
    fun hn => ⟨(g.con hn).1.trans (h.con hn).1, (g.con hn).2.trans (h.con hn).2⟩⟩

theorem effect_getc {s t : State} (h : getcFromRead s = .next t) : Effect .trapGetc s t := by
  obtain ⟨c, k, hr, rfl⟩ | ⟨-, rfl⟩ | ⟨k, hr, rfl⟩ := getcFromRead_cases h
  · exact .result _ rfl ⟨readGets_quiet hr, fun _ => rfl, fun _ => ⟨rfl, rfl⟩⟩ rfl (.inr ⟨rfl, rfl⟩)
  · exact .held ⟨quiet_hold s _, fun _ => rfl, fun _ => ⟨rfl, rfl⟩⟩ rfl rfl ⟨_, rfl⟩
  · exact .fails ⟨readFailsNext_quiet hr, fun _ => rfl, fun _ => ⟨rfl, rfl⟩⟩ rfl (.inr ⟨rfl, rfl⟩)

theorem effect_in {s t : State} (h : inFromRead s = .next t) : Effect .trapIn s t := by
  obtain ⟨c, k, hr, -, rfl⟩ | ⟨c, k, hr, -, rfl⟩ | ⟨-, rfl⟩ | ⟨k, hr, rfl⟩ := inFromRead_cases h
  · exact .result _ rfl ⟨(readGets_quiet hr).trans (quiet_written _ _), fun _ => rfl, nofun⟩ rfl (.inr ⟨rfl, rfl⟩)
  · exact .fails ⟨(readGets_quiet hr).trans (quiet_writeFailed _ _), fun _ => rfl, nofun⟩ rfl (.inr ⟨rfl, rfl⟩)
  · exact .held ⟨quiet_hold s _, fun _ => rfl, nofun⟩ rfl rfl ⟨_, rfl⟩
  · exact .fails ⟨readFailsNext_quiet hr, fun _ => rfl, nofun⟩ rfl (.inr ⟨rfl, rfl⟩)

theorem effect_scan {w : Word → Hold} {i : Instr} {s t : State} (hi : readsMemory i = true) (hw : writesConsole i = true)
    (ht : isTrap i = true) (hd : setsCondFrom i = none) (h : ScanOut w s t) : Effect i s t := by
  obtain ⟨hq, ⟨hf, hh⟩ | ⟨hf, hh⟩ | ⟨hf, a, hh⟩⟩ := h
  all_goals have hb : Before i s t := ⟨hq, by simp [hi], by simp [hw]⟩
  · exact .plain hd hb hf (.inr ⟨ht, hh⟩) (by rintro rfl; cases hi)
  · exact .fails hb hf (.inr ⟨ht, hh⟩)
  · exact .held hb hf ht ⟨_, hh⟩

/-- The trap a held routine belongs to. -/
def Hold.instr : Hold → Instr
  | .getc => .trapGetc
  | .inChar => .trapIn
  | .puts _ => .trapPuts
  | .putsp _ => .trapPutsp

/-- A resumed routine does not depend on the hold: its effects start from the state without it. -/
theorem resume_unheld (w : Hold) (s : State) : resume w s = resume w { s with hold := none } := by
  cases w <;> rfl

/-- A resumed routine does nothing the whole instruction could not do after its entry. -/
theorem resume_effect {w : Hold} {s t : State} (h : resume w s = .next t) :
    Effect w.instr { s with hold := none } t := by
  rw [resume_unheld] at h
  cases w with
  | getc => exact effect_getc h
  | inChar => exact effect_in h
  | puts a => exact effect_scan rfl rfl rfl rfl (putsFrom_cases h)
  | putsp a => exact effect_scan rfl rfl rfl rfl (putspFrom_cases h)

/-- The state an instruction's effects start from: a trap's linkage is written first (R127). -/
def entry (i : Instr) (s : State) : State := if isTrap i then enterTrap s else s

/-- An instruction does nothing outside `Effect`. -/
theorem exec_effect {i : Instr} {s t : State} (h : exec i s = .next t) : Effect i (entry i s) t := by
  cases i with
  | addReg _ _ _ | addImm _ _ _ | andReg _ _ _ | andImm _ _ _ | not _ _ | lea _ _ =>
    exact next_inj h ▸ .result _ rfl (.refl _ s) rfl (.inl rfl)
  | br m o =>
    have h := next_inj h
    split at h
    · exact h ▸ .goes _ rfl
    · exact h ▸ .plain rfl (.refl _ s) rfl (.inl rfl) nofun
  | jmp _ => exact next_inj h ▸ .goes _ rfl
  | jsr _ | jsrr _ => exact next_inj h ▸ .calls _ rfl rfl
  | st _ _ | str _ _ _ => exact next_inj h ▸ .stores _ _ rfl (.refl _ s) rfl rfl
  | rti | reserved => exact next_inj h ▸ .plain rfl (.refl _ s) rfl (.inl rfl) nofun
  | ld _ _ =>
    obtain ⟨v, u, hr, rfl⟩ | hr := execLd_cases h
    · exact .result v rfl (before_readOf rfl hr) (readOf_control hr).1 (.inl (readOf_control hr).2.1)
    · exact .fails (before_readFails rfl hr) (readFails_control hr).1 (.inl (readFails_control hr).2.1)
  | ldr _ _ _ =>
    obtain ⟨v, u, hr, rfl⟩ | hr := execLdr_cases h
    · exact .result v rfl (before_readOf rfl hr) (readOf_control hr).1 (.inl (readOf_control hr).2.1)
    · exact .fails (before_readFails rfl hr) (readFails_control hr).1 (.inl (readFails_control hr).2.1)
  | ldi _ _ =>
    obtain ⟨p, u, v, w, hr, hg, rfl⟩ | ⟨p, u, hr, hg⟩ | hr := execLdi_cases h
    · exact .result v rfl ((before_readOf rfl hr).trans (before_readOf rfl hg))
        ((readOf_control hg).1.trans (readOf_control hr).1)
        (.inl ((readOf_control hg).2.1.trans (readOf_control hr).2.1))
    · exact .fails ((before_readOf rfl hr).trans (before_readFails rfl hg)) (readFails_control hg).1
        (.inl ((readFails_control hg).2.1.trans (readOf_control hr).2.1))
    · exact .fails (before_readFails rfl hr) (readFails_control hr).1 (.inl (readFails_control hr).2.1)
  | sti _ _ =>
    obtain ⟨p, u, hr, rfl⟩ | hr := execSti_cases h
    · exact .stores _ _ rfl (before_readOf rfl hr) (readOf_control hr).1 (readOf_control hr).2.1
    · exact .fails (before_readFails rfl hr) (readFails_control hr).1 (.inl (readFails_control hr).2.1)
  | trapGetc => exact effect_getc h
  | trapOut =>
    obtain ⟨-, rfl⟩ | ⟨-, rfl⟩ := execTrapOut_cases h
    · exact .plain rfl ⟨quiet_written (enterTrap s) _, fun _ => rfl, nofun⟩ rfl (.inl rfl) nofun
    · exact .fails ⟨quiet_writeFailed (enterTrap s) _, fun _ => rfl, nofun⟩ rfl (.inl rfl)
  | trapPuts => exact effect_scan rfl rfl rfl rfl (putsFrom_cases h)
  | trapIn =>
    obtain ⟨-, h⟩ | ⟨n, -, -, rfl⟩ := execTrapIn_cases h
    · cases effect_in h with
      | result v hd hb hf hh =>
        exact .result v hd (Before.trans ⟨quiet_written (enterTrap s) _, fun _ => rfl, nofun⟩ hb) hf hh
      | plain hd => cases hd
      | goes _ hi => cases hi
      | calls _ hi => cases hi
      | stores _ _ hi => cases hi
      | halts hi => cases hi
      | badVector _ hi => cases hi
      | fails hb hf hh => exact .fails (Before.trans ⟨quiet_written (enterTrap s) _, fun _ => rfl, nofun⟩ hb) hf hh
      | held hb hf ht hd =>
        exact .held (Before.trans ⟨quiet_written (enterTrap s) _, fun _ => rfl, nofun⟩ hb) hf ht hd
    · exact .fails ⟨quiet_writeFailed (enterTrap s) _, fun _ => rfl, nofun⟩ rfl (.inl rfl)
  | trapPutsp => exact effect_scan rfl rfl rfl rfl (putspFrom_cases h)
  | trapHalt =>
    obtain ⟨-, rfl⟩ | ⟨n, -, -, rfl⟩ := execTrapHalt_cases h
    · exact .halts rfl ⟨quiet_written (enterTrap s) _, fun _ => rfl, nofun⟩ rfl rfl rfl
    · exact .fails ⟨quiet_writeFailed (enterTrap s) _, fun _ => rfl, nofun⟩ rfl (.inl rfl)
  | trapOther v => exact next_inj h ▸ .badVector v rfl

end Sys2Proof.Machine
end

