-- ==== Sys2Proof/Laws/CondFree.lean ====
section
/-! SUPPORT. No primitive of memory, of the ports or of the scan reads or writes `cond`: another `cond` before gives the same outcome with that `cond` after (R27). -/

namespace Sys2Proof.Machine

/-- The state with another condition. -/
def State.withCond (s : State) (c : Cond) : State := { s with cond := c }

/-- The same outcome with another condition in its state. -/
def Res.withCond {α : Type} (r : Res α) (c : Cond) : Res α :=
  match r with
  | .done a s => .done a (s.withCond c)
  | .ended s => .ended (s.withCond c)

theorem Res.bind_withCond {α β : Type} (r : Res α) (k : α → State → Res β) (c : Cond)
    (hk : ∀ a u, k a (u.withCond c) = (k a u).withCond c) :
    (r.withCond c).bind k = (r.bind k).withCond c := by
  cases r with
  | done a s => exact hk a s
  | ended s => rfl

theorem kbdPoll_withCond (s : State) (c : Cond) : kbdPoll (s.withCond c) = (kbdPoll s).withCond c := by
  obtain ⟨x, k, h⟩ | ⟨k, h⟩ | ⟨k, h⟩ := answer_cases s
  · rw [kbdPoll_key h, kbdPoll_key (s := s.withCond c) h]; rfl
  · rw [kbdPoll_noKey h, kbdPoll_noKey (s := s.withCond c) h]; rfl
  · rw [kbdPoll_fails h, kbdPoll_fails (s := s.withCond c) h]; rfl

theorem memRead_withCond (a : Word) (s : State) (c : Cond) :
    memRead a (s.withCond c) = (memRead a s).withCond c := by
  unfold memRead
  split
  · rw [kbdPoll_withCond]
    exact Res.bind_withCond _ _ c fun x u => by cases x <;> rfl
  · rfl

theorem kbdRead_withCond (w : Hold) (s : State) (c : Cond) :
    kbdRead w (s.withCond c) = (kbdRead w s).withCond c := by
  obtain ⟨x, k, h⟩ | h | ⟨k, h⟩ := read_cases s
  · rw [kbdRead_gets h, kbdRead_gets (s := s.withCond c) h]; rfl
  · rw [kbdRead_waits h, kbdRead_waits (s := s.withCond c) h]; rfl
  · rw [kbdRead_fails h, kbdRead_fails (s := s.withCond c) h]; rfl

theorem conWriteAll_withCond (bs : List Byte) (s : State) (c : Cond) :
    conWriteAll bs (s.withCond c) = (conWriteAll bs s).withCond c := by
  obtain h | ⟨n, hn, h⟩ := con_cases s bs.length
  · rw [conWriteAll_takes h, conWriteAll_takes (s := s.withCond c) h]; rfl
  · rw [conWriteAll_fails hn h, conWriteAll_fails (s := s.withCond c) hn h]; rfl

theorem scan_withCond (w : Word → Hold) (emit : Word → List Byte) (n : Nat) (a : Word) (s : State) (c : Cond) :
    scan w emit n a (s.withCond c) = (scan w emit n a s).withCond c := by
  induction n generalizing a s with
  | zero => rfl
  | succ n ih =>
    rw [scan, scan, memRead_withCond]
    refine Res.bind_withCond _ _ c fun v u => ?_
    split
    · rfl
    · rw [conWriteAll_withCond]
      exact Res.bind_withCond _ _ c fun _ t => ih _ t

theorem scanString_withCond (w : Word → Hold) (emit : Word → List Byte) (a : Word) (s : State) (c : Cond) :
    scanString w emit a (s.withCond c) = (scanString w emit a s).withCond c :=
  scan_withCond w emit (scanBound s) a { s with hold := none } c

end Sys2Proof.Machine
end

