-- ==== Sys2Proof/Laws/Decode.lean ====
section
/-! SUPPORT. The fields of the word layouts of R63, read back from a word put together from them, and the selectors. The decoder's and the encoder's proofs cite these and never compute with bits. -/

namespace Sys2Proof

theorem append_toNat {m n : Nat} (x : BitVec m) (y : BitVec n) :
    (x ++ y).toNat = x.toNat * 2 ^ n + y.toNat := by
  rw [BitVec.toNat_append, Nat.shiftLeft_eq, Nat.mul_comm, ← Nat.two_pow_add_eq_or_of_lt y.isLt]

theorem field_toNat (w : Word) (lo len : Nat) : (w.extractLsb' lo len).toNat = w.toNat / 2 ^ lo % 2 ^ len := by
  rw [BitVec.extractLsb'_toNat, Nat.shiftRight_eq_div_pow]

@[simp] theorem regField_regBits (w : Word) (lo : Nat) (r : Reg) (h : w.extractLsb' lo 3 = regBits r) :
    regField w lo = r := by
  apply Fin.ext
  simp only [regField, h, regBits, BitVec.toNat_ofNat]
  omega

theorem regField_toFin (w : Word) (lo : Nat) (r : BitVec 3) (h : w.extractLsb' lo 3 = r) :
    regField w lo = r.toFin := by
  apply Fin.ext
  simp only [regField, h, BitVec.val_toFin]

/-- opcode, register or mask, offset9: `BR`, `LD`, `LDI`, `LEA`, `ST`, `STI`. -/
theorem layout_offset9 (op : BitVec 4) (r : BitVec 3) (o : BitVec 9) :
    (op ++ r ++ o : Word).extractLsb' 12 4 = op ∧ (op ++ r ++ o : Word).extractLsb' 9 3 = r ∧
    (op ++ r ++ o : Word).extractLsb' 0 9 = o := by
  have hw : (op ++ r ++ o : Word).toNat = (op.toNat * 8 + r.toNat) * 512 + o.toNat :=
    (append_toNat (op ++ r) o).trans (by rw [append_toNat]; norm_num)
  have := op.isLt; have := r.isLt; have := o.isLt
  refine ⟨?_, ?_, ?_⟩ <;> (apply BitVec.eq_of_toNat_eq; rw [field_toNat, hw]; omega)

/-- opcode, two registers, offset6: `LDR`, `STR`, `NOT`, `JMP`. -/
theorem layout_offset6 (op : BitVec 4) (r q : BitVec 3) (o : BitVec 6) :
    (op ++ r ++ q ++ o : Word).extractLsb' 12 4 = op ∧ (op ++ r ++ q ++ o : Word).extractLsb' 9 3 = r ∧
    (op ++ r ++ q ++ o : Word).extractLsb' 6 3 = q ∧ (op ++ r ++ q ++ o : Word).extractLsb' 0 6 = o := by
  have hw : (op ++ r ++ q ++ o : Word).toNat =
      ((op.toNat * 8 + r.toNat) * 8 + q.toNat) * 64 + o.toNat :=
    (append_toNat (op ++ r ++ q) o).trans (by rw [append_toNat, append_toNat]; norm_num)
  have := op.isLt; have := r.isLt; have := q.isLt; have := o.isLt
  refine ⟨?_, ?_, ?_, ?_⟩ <;> (apply BitVec.eq_of_toNat_eq; rw [field_toNat, hw]; omega)

/-- A single bit as a number. -/
theorem getLsbD_toNat (w : Word) (i : Nat) : w.getLsbD i = decide (w.toNat / 2 ^ i % 2 = 1) := by
  rw [BitVec.getLsbD, Nat.testBit_eq_decide_div_mod_eq]

/-- opcode, two registers, mode bit, imm5: `ADD`, `AND` in the immediate form. -/
theorem layout_imm5 (op : BitVec 4) (r q : BitVec 3) (m : BitVec 1) (o : BitVec 5) :
    (op ++ r ++ q ++ m ++ o : Word).extractLsb' 12 4 = op ∧
    (op ++ r ++ q ++ m ++ o : Word).extractLsb' 9 3 = r ∧
    (op ++ r ++ q ++ m ++ o : Word).extractLsb' 6 3 = q ∧
    (op ++ r ++ q ++ m ++ o : Word).getLsbD 5 = decide (m = 1) ∧
    (op ++ r ++ q ++ m ++ o : Word).extractLsb' 0 5 = o := by
  have hw : (op ++ r ++ q ++ m ++ o : Word).toNat =
      (((op.toNat * 8 + r.toNat) * 8 + q.toNat) * 2 + m.toNat) * 32 + o.toNat :=
    (append_toNat (op ++ r ++ q ++ m) o).trans (by rw [append_toNat, append_toNat, append_toNat]; norm_num)
  have := op.isLt; have := r.isLt; have := q.isLt; have := m.isLt; have := o.isLt
  refine ⟨?_, ?_, ?_, ?_, ?_⟩
  iterate 3 (apply BitVec.eq_of_toNat_eq; rw [field_toNat, hw]; omega)
  · rw [getLsbD_toNat, hw]
    have h1 : m = 1 ↔ m.toNat = 1 := BitVec.toNat_inj.symm
    simp only [h1, decide_eq_decide]
    omega
  · apply BitVec.eq_of_toNat_eq; rw [field_toNat, hw]; omega

/-- opcode, two registers, mode bit, ignored bits, register: `ADD`, `AND` in the register form. -/
theorem layout_sr2 (op : BitVec 4) (r q : BitVec 3) (m : BitVec 1) (x : BitVec 2) (o : BitVec 3) :
    (op ++ r ++ q ++ m ++ x ++ o : Word).extractLsb' 12 4 = op ∧
    (op ++ r ++ q ++ m ++ x ++ o : Word).extractLsb' 9 3 = r ∧
    (op ++ r ++ q ++ m ++ x ++ o : Word).extractLsb' 6 3 = q ∧
    (op ++ r ++ q ++ m ++ x ++ o : Word).getLsbD 5 = decide (m = 1) ∧
    (op ++ r ++ q ++ m ++ x ++ o : Word).extractLsb' 0 3 = o := by
  have hw : (op ++ r ++ q ++ m ++ x ++ o : Word).toNat =
      ((((op.toNat * 8 + r.toNat) * 8 + q.toNat) * 2 + m.toNat) * 4 + x.toNat) * 8 + o.toNat :=
    (append_toNat (op ++ r ++ q ++ m ++ x) o).trans
      (by rw [append_toNat, append_toNat, append_toNat, append_toNat]; norm_num)
  have := op.isLt; have := r.isLt; have := q.isLt; have := m.isLt; have := x.isLt; have := o.isLt
  refine ⟨?_, ?_, ?_, ?_, ?_⟩
  iterate 3 (apply BitVec.eq_of_toNat_eq; rw [field_toNat, hw]; omega)
  · rw [getLsbD_toNat, hw]
    have h1 : m = 1 ↔ m.toNat = 1 := BitVec.toNat_inj.symm
    simp only [h1, decide_eq_decide]
    omega
  · apply BitVec.eq_of_toNat_eq; rw [field_toNat, hw]; omega

/-- opcode, mode bit, offset11: `JSR`. -/
theorem layout_offset11 (op : BitVec 4) (m : BitVec 1) (o : BitVec 11) :
    (op ++ m ++ o : Word).extractLsb' 12 4 = op ∧ (op ++ m ++ o : Word).getLsbD 11 = decide (m = 1) ∧
    (op ++ m ++ o : Word).extractLsb' 0 11 = o := by
  have hw : (op ++ m ++ o : Word).toNat = (op.toNat * 2 + m.toNat) * 2048 + o.toNat :=
    (append_toNat (op ++ m) o).trans (by rw [append_toNat]; norm_num)
  have := op.isLt; have := m.isLt; have := o.isLt
  refine ⟨?_, ?_, ?_⟩
  · apply BitVec.eq_of_toNat_eq; rw [field_toNat, hw]; omega
  · rw [getLsbD_toNat, hw]
    have h1 : m = 1 ↔ m.toNat = 1 := BitVec.toNat_inj.symm
    simp only [h1, decide_eq_decide]
    omega
  · apply BitVec.eq_of_toNat_eq; rw [field_toNat, hw]; omega

/-- opcode, mode bit, ignored bits, register, ignored bits: `JSRR`. -/
theorem layout_jsrr (op : BitVec 4) (m : BitVec 1) (x : BitVec 2) (q : BitVec 3) (o : BitVec 6) :
    (op ++ m ++ x ++ q ++ o : Word).extractLsb' 12 4 = op ∧
    (op ++ m ++ x ++ q ++ o : Word).getLsbD 11 = decide (m = 1) ∧
    (op ++ m ++ x ++ q ++ o : Word).extractLsb' 6 3 = q := by
  have hw : (op ++ m ++ x ++ q ++ o : Word).toNat =
      (((op.toNat * 2 + m.toNat) * 4 + x.toNat) * 8 + q.toNat) * 64 + o.toNat :=
    (append_toNat (op ++ m ++ x ++ q) o).trans (by rw [append_toNat, append_toNat, append_toNat]; norm_num)
  have := op.isLt; have := m.isLt; have := x.isLt; have := q.isLt; have := o.isLt
  refine ⟨?_, ?_, ?_⟩
  · apply BitVec.eq_of_toNat_eq; rw [field_toNat, hw]; omega
  · rw [getLsbD_toNat, hw]
    have h1 : m = 1 ↔ m.toNat = 1 := BitVec.toNat_inj.symm
    simp only [h1, decide_eq_decide]
    omega
  · apply BitVec.eq_of_toNat_eq; rw [field_toNat, hw]; omega

/-- opcode and twelve ignored bits: `RTI`, reserved. -/
theorem layout_inert (op : BitVec 4) (x : BitVec 12) : (op ++ x : Word).extractLsb' 12 4 = op := by
  have hw : (op ++ x : Word).toNat = op.toNat * 4096 + x.toNat := append_toNat op x
  have := op.isLt; have := x.isLt
  apply BitVec.eq_of_toNat_eq; rw [field_toNat, hw]; omega

/-- opcode, ignored bits, vector: `TRAP`. -/
theorem layout_trap (op x : BitVec 4) (v : BitVec 8) :
    (op ++ x ++ v : Word).extractLsb' 12 4 = op ∧ (op ++ x ++ v : Word).extractLsb' 0 8 = v := by
  have hw : (op ++ x ++ v : Word).toNat = (op.toNat * 16 + x.toNat) * 256 + v.toNat :=
    (append_toNat (op ++ x) v).trans (by rw [append_toNat]; norm_num)
  have := op.isLt; have := x.isLt; have := v.isLt
  refine ⟨?_, ?_⟩ <;> (apply BitVec.eq_of_toNat_eq; rw [field_toNat, hw]; omega)

/-- A vector outside the six is decoded to the invalid `TRAP` with that vector (R66). -/
theorem decodeTrap_other {v : BitVec 8} (h : isRoutineVector v = false) : decodeTrap v = .trapOther v := by
  revert v
  decide

/-- Whatever the vector, the `TRAP` decoded is well-formed. -/
theorem decodeTrap_wellFormed (v : BitVec 8) : (decodeTrap v).wellFormed = true := by
  revert v
  decide

end Sys2Proof
end

