-- ==== Sys2Proof/Laws/PerInstr.lean ====
section
/-! SUPPORT. Per instruction: the opcode bits of its word are those of the opcode map (R62). -/

namespace Sys2Proof.Laws.Opcode

/-- The opcode of an instruction, by the opcode map (R62). -/
def number : Instr → BitVec 4
  | .br _ _ => 0x0
  | .addReg _ _ _ | .addImm _ _ _ => 0x1
  | .ld _ _ => 0x2
  | .st _ _ => 0x3
  | .jsr _ | .jsrr _ => 0x4
  | .andReg _ _ _ | .andImm _ _ _ => 0x5
  | .ldr _ _ _ => 0x6
  | .str _ _ _ => 0x7
  | .rti => 0x8
  | .not _ _ => 0x9
  | .ldi _ _ => 0xA
  | .sti _ _ => 0xB
  | .jmp _ => 0xC
  | .reserved => 0xD
  | .lea _ _ => 0xE
  | .trapGetc | .trapOut | .trapPuts | .trapIn | .trapPutsp | .trapHalt | .trapOther _ => 0xF

/-- The four high bits of the instruction's word are its opcode. -/
def Statement (i : Instr) : Prop := (encode i).extractLsb' 12 4 = number i

theorem br (mask : BitVec 3) (offset9 : BitVec 9) : Statement (.br mask offset9) := (layout_offset9 _ _ _).1

theorem addReg (dr sr1 sr2 : Reg) : Statement (.addReg dr sr1 sr2) := (layout_sr2 _ _ _ _ _ _).1

theorem addImm (dr sr1 : Reg) (imm5 : BitVec 5) : Statement (.addImm dr sr1 imm5) := (layout_imm5 _ _ _ _ _).1

theorem ld (dr : Reg) (offset9 : BitVec 9) : Statement (.ld dr offset9) := (layout_offset9 _ _ _).1

theorem st (sr : Reg) (offset9 : BitVec 9) : Statement (.st sr offset9) := (layout_offset9 _ _ _).1

theorem jsr (offset11 : BitVec 11) : Statement (.jsr offset11) := (layout_offset11 _ _ _).1

theorem jsrr (baseR : Reg) : Statement (.jsrr baseR) := (layout_jsrr _ _ _ _ _).1

theorem andReg (dr sr1 sr2 : Reg) : Statement (.andReg dr sr1 sr2) := (layout_sr2 _ _ _ _ _ _).1

theorem andImm (dr sr1 : Reg) (imm5 : BitVec 5) : Statement (.andImm dr sr1 imm5) := (layout_imm5 _ _ _ _ _).1

theorem ldr (dr baseR : Reg) (offset6 : BitVec 6) : Statement (.ldr dr baseR offset6) := (layout_offset6 _ _ _ _).1

theorem str (sr baseR : Reg) (offset6 : BitVec 6) : Statement (.str sr baseR offset6) := (layout_offset6 _ _ _ _).1

theorem rti : Statement .rti := layout_inert _ _

theorem not (dr sr1 : Reg) : Statement (.not dr sr1) := (layout_offset6 _ _ _ _).1

theorem ldi (dr : Reg) (offset9 : BitVec 9) : Statement (.ldi dr offset9) := (layout_offset9 _ _ _).1

theorem sti (sr : Reg) (offset9 : BitVec 9) : Statement (.sti sr offset9) := (layout_offset9 _ _ _).1

theorem jmp (baseR : Reg) : Statement (.jmp baseR) := (layout_offset6 _ _ _ _).1

theorem reserved : Statement .reserved := layout_inert _ _

theorem lea (dr : Reg) (offset9 : BitVec 9) : Statement (.lea dr offset9) := (layout_offset9 _ _ _).1

theorem trapGetc : Statement .trapGetc := (layout_trap _ _ _).1

theorem trapOut : Statement .trapOut := (layout_trap _ _ _).1

theorem trapPuts : Statement .trapPuts := (layout_trap _ _ _).1

theorem trapIn : Statement .trapIn := (layout_trap _ _ _).1

theorem trapPutsp : Statement .trapPutsp := (layout_trap _ _ _).1

theorem trapHalt : Statement .trapHalt := (layout_trap _ _ _).1

theorem trapOther (trapvect : BitVec 8) : Statement (.trapOther trapvect) := (layout_trap _ _ _).1

end Sys2Proof.Laws.Opcode
end

