-- ==== Sys2Proof/Laws/ScanEnds.lean ====
section
/-! SUPPORT. A scan that comes to its bound never ends: when the host's answers are used up and every cell has been met twice, the scan is in a cycle without a zero word. -/

namespace Sys2Proof.Machine

open Sys2Proof.Safety

/-! ### The scan relations are functions of the state -/

theorem readOf_unique {s u u' : State} {a v v' : Word} (h : ReadOf s a v u) (h' : ReadOf s a v' u') :
    v = v' ∧ u = u' :=
  Res.done.inj ((memRead_of_readOf h).symm.trans (memRead_of_readOf h'))

theorem readOf_not_fails {s u u' : State} {a v : Word} (h : ReadOf s a v u) (h' : ReadFails s a u') : False := by
  have := (memRead_of_readOf h).symm.trans (memRead_of_readFails h')
  cases this

theorem conTakes_not_fails {s : State} {m n : Nat} (h : ConTakes s n) (hm : m < n) (h' : ConFailsAt s m) : False := by
  have hx : ConAnswer.fails ∈ s.conPort.take n :=
    List.mem_of_getElem? (i := m) (by rw [List.getElem?_take_of_lt hm]; exact h'.2)
  cases h _ hx

/-- A scan that goes on for `n` words ends where what is left of it ends. -/
theorem scanRun_rest {emit : Word → List Byte} {n : Nat} {a : Word} {s u t : State} (h : ScanGoes emit n a s u)
    (ht : ScanRun emit a s t) : ScanRun emit (a + BitVec.ofNat 16 n) u t := by
  induction h with
  | zero a s => simpa using ht
  | more hr hw hc _ ih =>
    rw [← word_add_succ]
    cases ht with
    | stop h => exact absurd (readOf_unique hr h).1 hw
    | more h _ _ ht =>
      obtain ⟨rfl, rfl⟩ := readOf_unique hr h
      exact ih ht
    | readFails h => exact (readOf_not_fails hr h).elim
    | writeFails h _ hn hf =>
      obtain ⟨rfl, rfl⟩ := readOf_unique hr h
      exact (conTakes_not_fails hc hn hf).elim

/-- A scan that goes on for `m + n` words goes on for `m`, then for `n`. -/
theorem scanGoes_split {emit : Word → List Byte} {m n : Nat} {a : Word} {s t : State}
    (h : ScanGoes emit (m + n) a s t) :
    ∃ u, ScanGoes emit m a s u ∧ ScanGoes emit n (a + BitVec.ofNat 16 m) u t := by
  induction m generalizing a s with
  | zero => exact ⟨s, .zero a s, by simpa using h⟩
  | succ m ih =>
    rw [Nat.add_right_comm] at h
    cases h with
    | more hr hw hc ht =>
      obtain ⟨u, h1, h2⟩ := ih ht
      exact ⟨u, .more hr hw hc h1, word_add_succ _ m ▸ h2⟩

theorem scanGoes_quiet {emit : Word → List Byte} {n : Nat} {a : Word} {s u : State} (h : ScanGoes emit n a s u) :
    Quiet s u := by
  induction h with
  | zero => exact .refl _
  | more hr _ _ _ ih => exact ((readOf_quiet hr).trans (quiet_written _ _)).trans ih

/-- A scan that goes on touches neither the fault status nor the hold. -/
theorem scanGoes_control {emit : Word → List Byte} {n : Nat} {a : Word} {s u : State} (h : ScanGoes emit n a s u) :
    u.fault = s.fault ∧ u.hold = s.hold := by
  induction h with
  | zero => exact ⟨rfl, rfl⟩
  | more hr _ _ _ ih => exact ⟨ih.1.trans (readOf_control hr).1, ih.2.trans (readOf_control hr).2.1⟩

/-- The word a scan meets at any address within the next 65,536, in the state it has come to. -/
theorem scanGoes_meets {emit : Word → List Byte} {a : Word} {s t : State} (h : ScanGoes emit 65536 a s t) (x : Word) :
    ∃ i j u w v, ScanGoes emit i a s u ∧ ReadOf u x w v ∧ w ≠ 0 ∧ ScanGoes emit j (x + 1) (written v (emit w)) t := by
  have hi := (x - a).isLt
  obtain ⟨j, hj⟩ : ∃ j, 65536 = (x - a).toNat + (j + 1) := ⟨65535 - (x - a).toNat, by omega⟩
  rw [hj] at h
  obtain ⟨u, h1, h2⟩ := scanGoes_split h
  have hx : a + BitVec.ofNat 16 (x - a).toNat = x := by
    rw [BitVec.ofNat_toNat, BitVec.setWidth_eq, BitVec.add_comm, BitVec.sub_add_cancel]
  rw [hx] at h2
  cases h2 with
  | more hr hw _ ht => exact ⟨_, j, u, _, _, h1, hr, hw, ht⟩

/-! ### The host's answers are used up -/

/-- Each word written takes an answer of the console, while there is one. -/
theorem scanGoes_conPort {emit : Word → List Byte} (he : ∀ w, emit w ≠ []) {n : Nat} {a : Word} {s u : State}
    (h : ScanGoes emit n a s u) : u.conPort.length ≤ s.conPort.length - n := by
  induction h with
  | zero => exact Nat.le_refl _
  | @more n a w s v t hr _ _ _ ih =>
    have hl := List.length_pos_of_ne_nil (he w)
    have hv : (written v (emit w)).conPort.length = s.conPort.length - (emit w).length := by
      simp only [written, List.length_drop, (readOf_control hr).2.2.2]
    omega

/-- Each time round takes an answer of the keyboard, while there is one. -/
theorem scanGoes_kbd_round {emit : Word → List Byte} {a : Word} {s t : State} (h : ScanGoes emit 65536 a s t) :
    t.kbd.length ≤ s.kbd.length - 1 := by
  obtain ⟨i, j, u, w, v, h1, hr, hw, h2⟩ := scanGoes_meets h 0xFE00
  have hu := (scanGoes_quiet h1).kbd.length_le
  have ht : t.kbd.length ≤ v.kbd.length := (scanGoes_quiet h2).kbd.length_le
  have hv : v.kbd.length ≤ u.kbd.length - 1 := by
    cases hr with
    | plain h => exact absurd rfl h
    | noKey => exact absurd rfl hw
    | key _ hk =>
      obtain hk | ⟨-, -, rfl⟩ := hk
      · simp only [memWrite_kbd, hk, List.length_cons]; omega
      · exact Nat.zero_le _
  omega

theorem scanGoes_kbd {emit : Word → List Byte} {m : Nat} {a : Word} {s t : State}
    (h : ScanGoes emit (65536 * m) a s t) : t.kbd.length ≤ s.kbd.length - m := by
  induction m generalizing a s with
  | zero => exact (scanGoes_quiet h).kbd.length_le
  | succ m ih =>
    rw [Nat.mul_succ, Nat.add_comm] at h
    obtain ⟨u, h1, h2⟩ := scanGoes_split h
    have := scanGoes_kbd_round h1
    have := ih h2
    omega

/-! ### The cycle a scan is then in -/

/-- No answer of the host is left but a key ready for ever, and the last poll found it. -/
structure Settled (c : Byte) (s : State) : Prop where
  kbd : s.kbd = []
  kbdThen : s.kbdThen = some c
  conPort : s.conPort = []
  kbdr : s.cell 0xFE02 = c.setWidth 16

theorem settled_written {c : Byte} {s : State} (h : Settled c s) (bs : List Byte) : Settled c (written s bs) :=
  ⟨h.kbd, h.kbdThen, by simp [written, h.conPort], h.kbdr⟩

/-- A read of 0xFE00 that finds the key for ever. -/
theorem settled_poll {s u : State} {w : Word} (hk : s.kbd = []) (hp : s.conPort = []) (h : ReadOf s 0xFE00 w u)
    (hw : w ≠ 0) : ∃ c, s.kbdThen = some c ∧ Settled c u ∧ ∀ x, x ≠ 0xFE00 → x ≠ 0xFE02 → u.cell x = s.cell x := by
  have hq := (readOf_quiet h).cells
  cases h with
  | plain h => exact absurd rfl h
  | noKey => exact absurd rfl hw
  | @key _ c k hk' =>
    obtain hk' | ⟨-, hl, rfl⟩ := hk'
    · rw [hk] at hk'; cases hk'
    · refine ⟨c, hl, ⟨rfl, hl, hp, ?_⟩, hq⟩
      rw [cell_memWrite, if_pos rfl]

/-- A read in a settled state changes no cell but 0xFE00. -/
theorem settled_readOf {c : Byte} {s u : State} {a w : Word} (hs : Settled c s) (h : ReadOf s a w u) (hw : w ≠ 0) :
    Settled c u ∧ ∀ x, x ≠ 0xFE00 → u.cell x = s.cell x := by
  by_cases ha : a = 0xFE00
  · subst ha
    obtain ⟨d, hd, hu, hx⟩ := settled_poll hs.kbd hs.conPort h hw
    obtain rfl : c = d := Option.some.inj (hs.kbdThen.symm.trans hd)
    refine ⟨hu, fun x h1 => ?_⟩
    by_cases h2 : x = 0xFE02
    · rw [h2, hu.kbdr, hs.kbdr]
    · exact hx x h1 h2
  · cases h with
    | plain => exact ⟨hs, fun _ _ => rfl⟩
    | key h => exact absurd h ha
    | noKey h => exact absurd h ha

theorem settled_goes {emit : Word → List Byte} {c : Byte} {n : Nat} {a : Word} {s u : State} (hs : Settled c s)
    (h : ScanGoes emit n a s u) : Settled c u ∧ ∀ x, x ≠ 0xFE00 → u.cell x = s.cell x := by
  induction h with
  | zero => exact ⟨hs, fun _ _ => rfl⟩
  | more hr hw _ _ ih =>
    obtain ⟨h1, h2⟩ := settled_readOf hs hr hw
    obtain ⟨h3, h4⟩ := ih (settled_written h1 _)
    exact ⟨h3, fun x hx => (h4 x hx).trans (h2 x hx)⟩

/-- Once round settles a scan whose answers are used up. -/
theorem scanGoes_settles {emit : Word → List Byte} {a : Word} {s t : State} (hk : s.kbd = []) (hp : s.conPort = [])
    (h : ScanGoes emit 65536 a s t) : ∃ c, Settled c t := by
  obtain ⟨i, j, u, w, v, h1, hr, hw, h2⟩ := scanGoes_meets h 0xFE00
  have hq := scanGoes_quiet h1
  obtain ⟨c, -, hv, -⟩ := settled_poll (List.suffix_nil.1 (hk ▸ hq.kbd)) (List.suffix_nil.1 (hp ▸ hq.conPort)) hr hw
  exact ⟨c, (settled_goes (settled_written hv _) h2).1⟩

/-- Once round a settled scan that does not end meets no zero word. -/
theorem settled_cells {emit : Word → List Byte} {c : Byte} {a : Word} {s t : State} (hs : Settled c s)
    (h : ScanGoes emit 65536 a s t) (x : Word) (hx : x ≠ 0xFE00) : s.cell x ≠ 0 := by
  obtain ⟨i, j, u, w, v, h1, hr, hw, -⟩ := scanGoes_meets h x
  cases hr with
  | plain => rwa [(settled_goes hs h1).2 x hx] at hw
  | key h => exact absurd h hx
  | noKey h => exact absurd h hx

/-- In a settled state with no zero word on the way no read gives a zero word. -/
theorem settled_nonzero {c : Byte} {s u : State} {a w : Word} (hs : Settled c s)
    (hc : ∀ x, x ≠ 0xFE00 → s.cell x ≠ 0) (h : ReadOf s a w u) : w ≠ 0 := by
  cases h with
  | plain h => exact hc a h
  | key => decide
  | noKey _ hk =>
    obtain hk | ⟨-, hl, -⟩ := hk
    · cases hs.kbd.symm.trans hk
    · cases hs.kbdThen.symm.trans hl

/-- A settled scan with no zero word on the way never ends. -/
theorem settled_no_end {emit : Word → List Byte} {c : Byte} {a : Word} {s t : State} (hs : Settled c s)
    (hc : ∀ x, x ≠ 0xFE00 → s.cell x ≠ 0) (h : ScanRun emit a s t) : False := by
  have no_write : ∀ {u : State} {n : Nat}, Settled c u → ¬ ConFailsAt u n := fun hu hf => by
    simpa [hu.conPort] using hf.2
  induction h with
  | stop h => exact settled_nonzero hs hc h rfl
  | more h hw _ _ ih =>
    obtain ⟨h1, h2⟩ := settled_readOf hs h hw
    exact ih (settled_written h1 _) fun x hx => by
      show State.cell _ x ≠ 0
      rw [show State.cell (written _ _) x = _ from h2 x hx]
      exact hc x hx
  | readFails h =>
    cases h with
    | poll _ hk => cases hs.kbd.symm.trans hk
  | writeFails h hw _ hf => exact no_write (settled_readOf hs h hw).1 hf

/-! ### The bound -/

/-- A scan that goes on for all the reads of its bound never ends. -/
theorem scanBound_endless {emit : Word → List Byte} (he : ∀ w, emit w ≠ []) {a : Word} {s u : State}
    (h : ScanGoes emit (scanBound s) a s u) : ¬ ∃ t, ScanRun emit a s t := by
  rintro ⟨t, ht⟩
  have hb : scanBound s = 65536 * s.kbd.length + (s.conPort.length + (65536 + 65536)) := by
    unfold scanBound; omega
  rw [hb] at h
  obtain ⟨s1, h1, h⟩ := scanGoes_split h
  obtain ⟨s2, h2, h⟩ := scanGoes_split h
  obtain ⟨s3, h3, h⟩ := scanGoes_split h
  have hk1 : s1.kbd = [] := List.length_eq_zero_iff.1 (by have := scanGoes_kbd h1; omega)
  have hk : s2.kbd = [] := List.suffix_nil.1 (hk1 ▸ (scanGoes_quiet h2).kbd)
  have hp : s2.conPort = [] := List.length_eq_zero_iff.1 (by
    have := scanGoes_conPort he h2
    have := (scanGoes_quiet h1).conPort.length_le
    omega)
  obtain ⟨c, hs⟩ := scanGoes_settles hk hp h3
  exact settled_no_end hs (settled_cells hs h) (scanRun_rest h3 (scanRun_rest h2 (scanRun_rest h1 ht)))

/-- Everything the whole scan can do: it ends as the rule says, or it never ends and is held on the way. -/
theorem scanString_cases (h : Word → Hold) {emit : Word → List Byte} (he : ∀ w, emit w ≠ []) (a : Word) (s : State)
    (hh : s.hold = none) :
    (∃ t, ScanRun emit a s t ∧ (scanString h emit a s = .done () t ∨ scanString h emit a s = .ended t) ∧
      t.hold = none) ∨
    (¬ ∃ t, ScanRun emit a s t) ∧ ∃ n u, 0 < n ∧ ScanGoes emit n a s u ∧
      scanString h emit a s = .ended { u with hold := some (h (a + BitVec.ofNat 16 n)) } := by
  have hs : { s with hold := none } = s := by rw [← hh]
  unfold scanString
  rw [hs]
  obtain ⟨t, ht, hr, hd⟩ | ⟨u, hg, hr⟩ := scan_cases h emit (scanBound s) a s
  · exact .inl ⟨t, ht, hr, hd.trans hh⟩
  · exact .inr ⟨scanBound_endless he hg, _, u, by unfold scanBound; omega, hg, hr⟩

theorem putsBytes_ne_nil (w : Word) : putsBytes w ≠ [] := by simp [putsBytes]

theorem putspBytes_ne_nil (w : Word) : putspBytes w ≠ [] := by
  unfold putspBytes
  split <;> simp

end Sys2Proof.Machine
end

