-- ==== Sys2Proof/Tests/Slice0.lean ====
section
/-! SUPPORT. Tests: the check of WellFormed, words written out from the layouts of R63, the vectors S and V of 95_test_vectors.md (their expected results are the spec's), and a witness for the hypotheses of every statement. -/

namespace Sys2Proof.Tests

open Sys2Proof.Machine Sys2Proof.Safety

/-! ### Helpers -/

/-- The next state of an outcome. -/
def nextOf : Out → Option State
  | .next s => some s
  | .fault _ => none
  | .refused _ => none

/-- The start state of the vectors: reset, with the word `w` in the cell at `pc`. -/
def start (w : Word) (s : State := State.reset) : State := s.withFetchWord 16 w.toNat

/-- Reset with `pc` elsewhere. -/
def at' (a : Word) : State := State.reset.setPc a

/-- Reset with a keyboard input. -/
def keys (k : List KbdAnswer) : State := { State.reset with kbd := k }

/-- Reset with answers for the console. -/
def port (k : List ConAnswer) : State := { State.reset with conPort := k }

/-- What one step makes of a state, seen through `f`. -/
def after {α : Type} (s : State) (f : State → α) : Option α := (nextOf (step s)).map f

/-! ### WellFormed: the check refuses the ill-formed terms -/

theorem test_illFormed_trapOther_getc : (Instr.trapOther 0x20).wellFormed = false := by decide
theorem test_illFormed_trapOther_halt : (Instr.trapOther 0x25).wellFormed = false := by decide
theorem test_wellFormed_trapOther_below : (Instr.trapOther 0x1F).wellFormed = true := by decide
theorem test_wellFormed_trapOther_above : (Instr.trapOther 0x26).wellFormed = true := by decide

/-! ### Decoding: every constructor from a word written bit by bit from R63 -/

theorem test_decode_br : decode 0b0000101000000101 = .br 0b101 5 := by decide
theorem test_decode_addReg : decode 0b0001000000000010 = .addReg 0 0 2 := by decide
theorem test_decode_addReg_ignored : decode 0b0001101110011111 = .addReg 5 6 7 := by decide
theorem test_decode_addImm : decode 0b0001011100110000 = .addImm 3 4 0b10000 := by decide
theorem test_decode_ld : decode 0b0010001011111111 = .ld 1 0b011111111 := by decide
theorem test_decode_st : decode 0b0011011111111111 = .st 3 0b111111111 := by decide
theorem test_decode_jsr : decode 0b0100110000000000 = .jsr 0b10000000000 := by decide
theorem test_decode_jsrr : decode 0b0100000111000000 = .jsrr 7 := by decide
theorem test_decode_jsrr_ignored : decode 0b0100011011101010 = .jsrr 3 := by decide
theorem test_decode_andReg : decode 0b0101001001000010 = .andReg 1 1 2 := by decide
theorem test_decode_andImm : decode 0b0101000000101111 = .andImm 0 0 0b01111 := by decide
theorem test_decode_ldr : decode 0b0110000001100000 = .ldr 0 1 0b100000 := by decide
theorem test_decode_str : decode 0b0111001010111111 = .str 1 2 0b111111 := by decide
theorem test_decode_rti : decode 0b1000111111111111 = .rti := by decide
theorem test_decode_not : decode 0b1001000010111111 = .not 0 2 := by decide
theorem test_decode_not_ignored : decode 0b1001011011000000 = .not 3 3 := by decide
theorem test_decode_ldi : decode 0b1010000000000001 = .ldi 0 1 := by decide
theorem test_decode_sti : decode 0b1011001000000000 = .sti 1 0 := by decide
theorem test_decode_jmp : decode 0b1100000010000000 = .jmp 2 := by decide
theorem test_decode_jmp_ignored : decode 0b1100111001111111 = .jmp 1 := by decide
theorem test_decode_reserved : decode 0b1101000100100011 = .reserved := by decide
theorem test_decode_lea : decode 0b1110000111111111 = .lea 0 0b111111111 := by decide
theorem test_decode_trapGetc : decode 0b1111000000100000 = .trapGetc := by decide
theorem test_decode_trapOut : decode 0b1111000000100001 = .trapOut := by decide
theorem test_decode_trapPuts : decode 0b1111000000100010 = .trapPuts := by decide
theorem test_decode_trapIn : decode 0b1111000000100011 = .trapIn := by decide
theorem test_decode_trapPutsp : decode 0b1111000000100100 = .trapPutsp := by decide
theorem test_decode_trapHalt : decode 0b1111000000100101 = .trapHalt := by decide
theorem test_decode_trapHalt_ignored : decode 0b1111111100100101 = .trapHalt := by decide
theorem test_decode_trapOther : decode 0b1111000000100110 = .trapOther 0x26 := by decide
theorem test_decodeTableWord_short : decodeTableWord 8 0xF025 = some (.br 0 0x25) := by decide
theorem test_decodeTableWord_long : decodeTableWord 24 0xF025 = none := by decide

/-! ### Operate (95_test_vectors.md section 3.1) -/

theorem test_V1_add_same_register : after (start 0x1241 (State.reset.setReg 1 0x4000))
    (fun t => (t.reg 1, t.cond, t.pc)) = some (0x8000, .n, 0x3001) := by decide
theorem test_V7_add_ignored_bits : after (start 0x1B9F ((State.reset.setReg 6 3).setReg 7 4))
    (fun t => (t.reg 5, t.cond)) = some (0x0007, .p) := by decide
theorem test_V2_add_wraps : after (start 0x1061 (State.reset.setReg 1 0xFFFF))
    (fun t => (t.reg 0, t.cond)) = some (0x0000, .z) := by decide
theorem test_V5_add_most_negative : after (start 0x1730 (State.reset.setReg 4 0x0010))
    (fun t => (t.reg 3, t.cond)) = some (0x0000, .z) := by decide
theorem test_V11_and_register : after (start 0x5042 ((State.reset.setReg 1 0xF0F0).setReg 2 0x0FF0))
    (fun t => (t.reg 0, t.cond)) = some (0x00F0, .p) := by decide
theorem test_V10_and_immediate : after (start 0x5070 (State.reset.setReg 1 0xABCD))
    (fun t => (t.reg 0, t.cond)) = some (0xABC0, .n) := by decide
theorem test_V14_not : after (start 0x907F (State.reset.setReg 1 0x8000))
    (fun t => (t.reg 0, t.cond)) = some (0x7FFF, .p) := by decide
theorem test_V15_not_same_register : after (start 0x96C0 (State.reset.setReg 3 0x00FF))
    (fun t => (t.reg 3, t.cond)) = some (0xFF00, .n) := by decide

/-! ### Control (section 3.2) -/

theorem test_V22_br_taken : after (start 0x0A05 { State.reset with cond := .p }) (·.pc) = some 0x3006 := by decide
theorem test_V21_br_not_taken : after (start 0x0805) (·.pc) = some 0x3001 := by decide
theorem test_V26_ret : after (start 0xC1C0 (State.reset.setReg 7 0x1234)) (·.pc) = some 0x1234 := by decide
theorem test_V27_jmp_ignored_bits : after (start 0xCE7F (State.reset.setReg 1 0xBEEF)) (·.pc) = some 0xBEEF := by decide
theorem test_V29_jsr_most_negative : after (start 0x4C00) (fun t => (t.pc, t.reg 7)) = some (0x2C01, 0x3001) := by decide
theorem test_V28_jsr_keeps_cond : after (start 0x4FFF) (fun t => (t.pc, t.cond)) = some (0x3000, .z) := by decide
theorem test_V31_jsrr_r7 : after (start 0x41C0 (State.reset.setReg 7 0x5000))
    (fun t => (t.pc, t.reg 7)) = some (0x3001, 0x3001) := by decide
theorem test_V32_jsrr : after (start 0x46EA (State.reset.setReg 3 0x6000))
    (fun t => (t.pc, t.reg 7)) = some (0x6000, 0x3001) := by decide

/-! ### Loads and stores (section 3.3) -/

theorem test_V42_ld_kbsr : after (start 0x2400 { at' 0xFDFF with kbd := [.key 0x41] })
    (fun t => (t.reg 2, t.cond, t.cell 0xFE00, t.cell 0xFE02, t.kbd)) =
      some (0x8000, .n, 0x8000, 0x0041, []) := by decide
theorem test_V43_ld_kbsr_no_key : after (start 0x2400 (memWrite 0xFE00 0x1234 (at' 0xFDFF)))
    (fun t => (t.reg 2, t.cond, t.cell 0xFE00)) = some (0x0000, .z, 0x0000) := by decide
theorem test_V45_ldi_kbdr_is_pure :
    after (start 0xA001 (memWrite 0x3002 0xFE02 (memWrite 0xFE02 0x0062 (keys [.key 0x63]))))
      (fun t => (t.reg 0, t.cond, t.kbd)) = some (0x0062, .p, [.key 0x63]) := by decide
theorem test_V45b_ldi_pointer_kbsr :
    after (start 0xA600 (memWrite 0x8000 0x0123 { at' 0xFDFF with kbd := [.key 0x41] }))
      (fun t => (t.reg 3, t.cond, t.cell 0xFE00, t.cell 0xFE02)) = some (0x0123, .p, 0x8000, 0x0041) := by decide
theorem test_V46_ldr_same_register : after (start 0x6240 (memWrite 0x4000 0xFFFF (State.reset.setReg 1 0x4000)))
    (fun t => (t.reg 1, t.cond)) = some (0xFFFF, .n) := by decide
theorem test_V47_ldr_wraps : after (start 0x6041 (memWrite 0x0000 0x0009 (State.reset.setReg 1 0xFFFF)))
    (fun t => (t.reg 0, t.cond)) = some (0x0009, .p) := by decide
theorem test_V49_lea_wraps : after (start 0xE001 { at' 0xFFFE with cond := .p })
    (fun t => (t.reg 0, t.cond, t.pc)) = some (0x0000, .z, 0xFFFF) := by decide
theorem test_V50_lea_negative : after (start 0xE1FF (at' 0x8000))
    (fun t => (t.reg 0, t.cond)) = some (0x8000, .n) := by decide
theorem test_V51_st_over_itself : after (start 0x37FF (State.reset.setReg 3 0x1234))
    (fun t => (t.cell 0x3000, t.cond)) = some (0x1234, .z) := by decide
theorem test_V54_st_kbsr : after (start 0x3200 ({ at' 0xFDFF with kbd := [.key 0x41] }.setReg 1 0x7777))
    (fun t => (t.cell 0xFE00, t.cell 0xFE02, t.kbd)) = some (0x7777, 0x0000, [.key 0x41]) := by decide
theorem test_V52_sti_over_pointer : after (start 0xB200 (memWrite 0x3001 0x3001 (State.reset.setReg 1 0x0055)))
    (fun t => t.cell 0x3001) = some 0x0055 := by decide
theorem test_V53_str_wraps : after (start 0x72BF (State.reset.setReg 1 0x00AA))
    (fun t => t.cell 0xFFFF) = some 0x00AA := by decide

/-! ### System (section 3.4) -/

theorem test_V60_rti : after (start 0x8FFF (State.reset.setReg 2 3)) (fun t => (t.pc, t.regs, t.cond)) =
    some (0x3001, (State.reset.setReg 2 3).regs, .z) := by decide
theorem test_V61_reserved : after (start 0xD123 (State.reset.setReg 2 3)) (fun t => (t.pc, t.regs, t.cond)) =
    some (0x3001, (State.reset.setReg 2 3).regs, .z) := by decide
theorem test_V62_getc_nul : after (start 0xF020 { keys [.key 0x00] with cond := .n })
    (fun t => (t.reg 0, t.cond, t.reg 7, t.console)) = some (0x0000, .z, 0x3001, []) := by decide
theorem test_V63_getc_high : after (start 0xF020 (keys [.key 0xFF]))
    (fun t => (t.reg 0, t.cond)) = some (0x00FF, .p) := by decide
theorem test_V64_out : after (start 0xF021 (State.reset.setReg 0 0x1241))
    (fun t => (t.console, t.reg 0, t.cond, t.reg 7)) = some ([0x41], 0x1241, .z, 0x3001) := by decide
theorem test_V65_puts :
    after (start 0xF022 (memWrite 0x4000 0x0048 (memWrite 0x4001 0x0169 (State.reset.setReg 0 0x4000))))
      (fun t => (t.console, t.reg 0, t.reg 7)) = some ([0x48, 0x69], 0x4000, 0x3001) := by decide +kernel
theorem test_V67_puts_wraps :
    after (start 0xF022 (memWrite 0xFFFF 0x0041 (memWrite 0x0000 0x0042 (State.reset.setReg 0 0xFFFF))))
      (fun t => t.console) = some [0x41, 0x42] := by decide +kernel
theorem test_V68_in : after (start 0xF023 (keys [.key 0x7A])) (fun t => (t.console, t.reg 0, t.cond, t.reg 7)) =
    some (promptText ++ [0x7A], 0x007A, .p, 0x3001) := by decide
theorem test_V70_putsp :
    after (start 0xF024 (memWrite 0x4000 0x0041 (memWrite 0x4001 0x4342 (memWrite 0x4002 0x4400
        (State.reset.setReg 0 0x4000)))))
      (fun t => t.console) = some [0x41, 0x42, 0x43, 0x00, 0x44] := by decide +kernel
theorem test_V71_halt : after (start 0xF025 (State.reset.setReg 7 0xAAAA))
    (fun t => (t.console, t.run, t.reg 7, t.pc)) =
      some ([0x48, 0x41, 0x4C, 0x54, 0x0A], false, 0x3001, 0x3001) := by decide
theorem test_V73_trap_other : after (start 0xF026 (State.reset.setReg 7 0xAAAA))
    (fun t => (t.fault, t.reg 7, t.pc, t.run, t.console)) =
      some (some (.invalidTrapvect 0x26), 0x3001, 0x3001, true, []) := by decide

/-! ### The cycle (section 3.5), and boot -/

theorem test_V81_fetch_kbsr : after (memWrite 0xFE00 0x1FFF (at' 0xFE00))
    (fun t => (t.cell 0xFE00, t.regs, t.pc)) = some (0x0000, State.reset.regs, 0xFE01) := by decide
theorem test_V82_pc_wraps : after (at' 0xFFFF) (·.pc) = some 0x0000 := by decide

/-- The first two words of program P6 (origin 0x3002), loaded. -/
theorem test_boot : (boot (some [0x30, 0x02, 0x10, 0x23, 0xF0, 0x25])).toOption.map
    (fun t => (t.cell 0x3001, t.cell 0x3002, t.cell 0x3003, t.pc)) = some (0x0000, 0x1023, 0xF025, 0x3000) := by decide

/-! ### Witnesses: a state and operands that meet the hypotheses of each statement, each clause at its boundary -/

/-- A ready core. -/
theorem ready_reset : Ready State.reset := ⟨rfl, rfl, rfl⟩

/-- A key is next, from the list or from the constant input after it. -/
theorem keyNext_list : KeyNext (keys [.key 0x41, .fails]) 0x41 [.fails] := .inl rfl
theorem keyNext_then : KeyNext { State.reset with kbdThen := some 0xFF } 0xFF [] := .inr ⟨rfl, rfl, rfl⟩

/-- No key is next, from the list or after it. -/
theorem noKeyNext_list : NoKeyNext (keys [.notReady, .key 0]) [.key 0] := .inl rfl
theorem noKeyNext_end : NoKeyNext State.reset [] := .inr ⟨rfl, rfl, rfl⟩

/-- A read gets a character at once, after waiting, and from the constant input. -/
theorem readGets_now : ReadGets (keys [.key 0x00]) 0x00 [] := ⟨0, .inl rfl⟩
theorem readGets_later : ReadGets (keys [.notReady, .notReady, .key 0xFF, .key 0x41]) 0xFF [.key 0x41] := ⟨2, .inl rfl⟩
theorem readGets_then : ReadGets { keys [.notReady] with kbdThen := some 0x41 } 0x41 [] := ⟨1, .inr ⟨rfl, rfl, rfl⟩⟩

/-- A read waits, with answers left that are no characters and with none. -/
theorem readWaits_empty : ReadWaits State.reset := ⟨⟨0, rfl⟩, rfl⟩
theorem readWaits_notReady : ReadWaits (keys [.notReady, .notReady]) := ⟨⟨2, rfl⟩, rfl⟩

theorem witness_SignExtension : 5 ∈ [5, 6, 9, 11] ∧ 11 ∈ [5, 6, 9, 11] := by decide

theorem witness_MemReadRule_plain : (0xFE02 : Word) ≠ 0xFE00 ∧ (0xFDFF : Word) ≠ 0xFE00 := by decide
theorem witness_MemReadRule_key : ∃ s c k, KeyNext s c k := ⟨_, _, _, keyNext_list⟩
theorem witness_MemReadRule_noKey : ∃ s k, NoKeyNext s k := ⟨_, _, noKeyNext_end⟩

theorem witness_ReadSeesLatestStore : (0xFE01 : Word) ≠ 0xFE00 ∧
    ([(0xFE01, 1), (0xFE01, 2)] : List (Word × Word)).reverse.find? (fun st => st.1 == 0xFE01) = some (0xFE01, 2) := by
  decide

theorem witness_KbsrReadIsDestructive : (keys [.key 0x41, .key 0x42]).kbd = .key 0x41 :: .key 0x42 :: [] := rfl

theorem witness_JmpAndRetComplete : ∃ u, exec (.jsrr 7) State.reset = .next u ∧
    ((at' 0x4000).setReg 7 0x3000).reg 7 = u.reg 7 := ⟨_, rfl, by decide⟩

theorem witness_LdCompletes_plain : ReadOf State.reset (State.reset.pc + sext 0b100000000#9) 0x0000 State.reset :=
  .plain (by decide)
theorem witness_LdCompletes_key : ∃ u, ReadOf { at' 0xFE00 with kbd := [.key 0x41] }
    ((at' 0xFE00).pc + sext 0#9) 0x8000 u := ⟨_, .key (by decide) (.inl rfl)⟩
theorem witness_LdCompletes_noKey : ∃ u, ReadOf (at' 0xFE00) ((at' 0xFE00).pc + sext 0#9) 0x0000 u :=
  ⟨_, .noKey (by decide) (.inr ⟨rfl, rfl, rfl⟩)⟩

theorem witness_LdiCompletes_dataKbsr : ∃ p u v w,
    ReadOf (memWrite 0x3000 0xFE00 State.reset) (State.reset.pc + sext 0#9) p u ∧ ReadOf u p v w :=
  ⟨_, _, _, _, .plain (by decide), .noKey (by decide) (.inr ⟨rfl, rfl, rfl⟩)⟩
theorem witness_LdiCompletes_pointerKbsr : ∃ u w,
    ReadOf { at' 0xFE00 with kbd := [.key 0x41] } ((at' 0xFE00).pc + sext 0#9) 0x8000 u ∧
    ReadOf u 0x8000 (u.cell 0x8000) w :=
  ⟨_, _, .key (by decide) (.inl rfl), .plain (by decide)⟩

theorem witness_LdrCompletes : ReadOf State.reset (State.reset.reg 7 + sext 0b100000#6) 0x0000 State.reset :=
  .plain (by decide)
theorem witness_StiCompletes : ∃ u, ReadOf (at' 0xFE00) ((at' 0xFE00).pc + sext 0#9) 0x0000 u := witness_LdCompletes_noKey

theorem witness_LeaThenLdrEqualsLd : (at' 0xFE00).pc + sext 1#9 ≠ 0xFE00 ∧ (at' 0xFE00).pc + sext 0x1FF#9 ≠ 0xFE00 := by
  decide

theorem witness_GetcCompletes : (keys [.key 0x00]).hold = none ∧ ReadGets (keys [.key 0x00]) 0x00 [] := ⟨rfl, readGets_now⟩
theorem witness_OutCompletes : ConTakes (port []) 1 ∧ ConTakes (port [.accepts, .fails]) 1 := by
  constructor <;> simp [ConTakes, port]
theorem witness_PutsRunsTheScan : State.reset.hold = none ∧ State.hold { State.reset with kbdThen := some 0x41 } = none :=
  ⟨rfl, rfl⟩
theorem witness_InCompletes : (keys [.key 0x7A]).hold = none ∧ ReadGets (keys [.key 0x7A]) 0x7A [] ∧
    ConTakes (keys [.key 0x7A]) 20 := ⟨rfl, ⟨0, .inl rfl⟩, by simp [ConTakes, keys, State.reset]⟩
theorem witness_HaltCompletes : ConTakes (port [.accepts, .accepts, .accepts, .accepts, .accepts, .fails]) 5 := by
  simp [ConTakes, port]
theorem witness_OtherVectorFaults : (0x1F : BitVec 8) < 0x20 ∧ (0x25 : BitVec 8) < 0x26 := by decide
theorem witness_TrapRoutinesLeaveAlone : ∃ t, isTrap .trapHalt = true ∧ exec .trapHalt State.reset = .next t :=
  ⟨_, rfl, rfl⟩

/-- "Hi" at 0x4000. -/
def text : State := memWrite 0x4000 0x0048 (memWrite 0x4001 0x0069 (State.reset.setReg 0 0x4000))

theorem witness_PutsPrintsString : text.hold = none ∧
    (∀ j, (h : j < 2) → text.cell (text.reg 0 + BitVec.ofNat 16 j) = [0x0048, 0x0069][j] ∧
      ([0x0048, 0x0069] : List Word)[j] ≠ 0) ∧
    text.cell (text.reg 0 + BitVec.ofNat 16 2) = 0 ∧ (∀ j, j ≤ 2 → text.reg 0 + BitVec.ofNat 16 j ≠ 0xFE00) ∧
    ConTakes text (([0x0048, 0x0069] : List Word).flatMap putsText).length ∧
    ConTakes text (([0x0048, 0x0069] : List Word).flatMap putspText).length := by
  refine ⟨rfl, ?_, by decide, ?_, by simp [ConTakes, text, State.reset], by simp [ConTakes, text, State.reset]⟩
  · intro j h
    interval_cases j <;> exact ⟨rfl, by simp⟩
  · intro j h
    interval_cases j <;> decide

/-- Every cell holds 0x0001. -/
def noZero : Memory := (List.range 65536).map fun a => (a, 1)

theorem noZero_sorted : noZero.Pairwise fun c d => c.1 < d.1 := by
  rw [noZero, List.pairwise_map]
  exact List.pairwise_lt_range

theorem witness_EndlessScanNeverCompletes :
    Ready { State.reset with mem := noZero, kbdThen := some 0x41 } ∧ (0x41 : Byte) ≠ 0 ∧
    ∀ a, State.cell { State.reset with mem := noZero, kbdThen := some 0x41 } a ≠ 0 := by
  refine ⟨⟨rfl, rfl, rfl⟩, by decide, fun a => ?_⟩
  have hm : (a.toNat, (1 : Word)) ∈ noZero := List.mem_map.2 ⟨a.toNat, List.mem_range.2 a.isLt, rfl⟩
  rw [State.cell, Memory.read_of_mem noZero_sorted hm]
  show (1 : Word) ≠ 0
  decide

theorem witness_WaitingReadIsLiftedBySupply : Ready State.reset ∧ ReadWaits State.reset ∧ ConTakes State.reset 19 :=
  ⟨ready_reset, readWaits_empty, by simp [ConTakes, State.reset]⟩

/-- A core at `pc` 0xFE00 whose next poll fails. -/
def failing : State := { at' 0xFE00 with kbd := [.fails] }

theorem witness_FailedPollEndsTheStep_fetch : ∃ u, Ready failing ∧ ReadFails failing failing.pc u :=
  ⟨_, ⟨rfl, rfl, rfl⟩, .poll rfl rfl⟩
theorem witness_FailedPollEndsTheStep_load : ∃ u, ReadFails failing (failing.pc + sext 0#9) u := ⟨_, .poll (by decide) rfl⟩
theorem witness_FailedPollEndsTheStep_ldr :
    ∃ u, ReadFails (failing.setReg 1 0xFE01) ((failing.setReg 1 0xFE01).reg 1 + sext 0x3F#6) u :=
  ⟨_, .poll (by decide) rfl⟩
theorem witness_FailedPollEndsTheStep_ldiData : ∃ p w u,
    ReadOf (memWrite 0x3000 0xFE00 (keys [.fails])) (State.reset.pc + sext 0#9) p w ∧ ReadFails w p u :=
  ⟨_, _, _, .plain (by decide), .poll (by decide) rfl⟩

/-- The next `n` writes are taken and the one after fails. -/
def failsAt (n : Nat) : State := port (List.replicate n .accepts ++ [.fails])

theorem conFailsAt_failsAt (n : Nat) : ConFailsAt (failsAt n) n := by
  constructor
  · intro x hx
    simp [failsAt, port] at hx
    exact hx.2
  · simp [failsAt, port]

theorem witness_FailedPortEndsTheRoutine_console : (failsAt 0).hold = none ∧ ConFailsAt (failsAt 0) 0 ∧
    ConFailsAt (failsAt 4) 4 ∧ ConFailsAt (failsAt 18) 18 :=
  ⟨rfl, conFailsAt_failsAt 0, conFailsAt_failsAt 4, conFailsAt_failsAt 18⟩
theorem witness_FailedPortEndsTheRoutine_read : (keys [.notReady, .fails]).hold = none ∧
    ReadFailsNext (keys [.notReady, .fails]) [] ∧ ConTakes (keys [.notReady, .fails]) 19 :=
  ⟨rfl, ⟨1, rfl⟩, by simp [ConTakes, keys, State.reset]⟩
theorem witness_FailedPortEndsTheRoutine_echo :
    ReadGets { failsAt 19 with kbd := [.key 0x41] } 0x41 [] ∧ ConFailsAt { failsAt 19 with kbd := [.key 0x41] } 19 :=
  ⟨⟨0, .inl rfl⟩, conFailsAt_failsAt 19⟩

theorem witness_StepRunsDecodedInstruction : Ready (start 0xF025) ∧ ReadOf (start 0xF025) 0x3000 0xF025 (start 0xF025) :=
  ⟨⟨rfl, rfl, rfl⟩, .plain (by decide)⟩
theorem witness_FetchAtKbsr_key : Ready { at' 0xFE00 with kbd := [.key 0x41] } ∧
    KeyNext { at' 0xFE00 with kbd := [.key 0x41] } 0x41 [] := ⟨⟨rfl, rfl, rfl⟩, .inl rfl⟩
theorem witness_FetchAtKbsr_noKey : Ready (at' 0xFE00) ∧ (at' 0xFE00).pc = 0xFE00 ∧ NoKeyNext (at' 0xFE00) [] :=
  ⟨⟨rfl, rfl, rfl⟩, rfl, .inr ⟨rfl, rfl, rfl⟩⟩
theorem witness_PcIncrementedOncePerStep : ∃ t, Ready (start 0xF026) ∧
    ReadOf (start 0xF026) 0x3000 0xF026 (start 0xF026) ∧ writesPc (decode 0xF026) = false ∧ step (start 0xF026) = .next t :=
  ⟨_, ⟨rfl, rfl, rfl⟩, .plain (by decide), by decide, rfl⟩

/-- What the statements over all instructions ask: an instruction, and a state it has a next state in. -/
theorem witness_CondMatchesDestination : ∃ t, setsCondFrom .trapGetc = some 0 ∧
    exec .trapGetc (keys [.key 0x41]) = .next t ∧ (keys [.key 0x41]).fault = none ∧ t.fault = none ∧ t.hold = none :=
  ⟨_, rfl, rfl, rfl, rfl, rfl⟩
theorem witness_CondWritersAndReader : ∃ t, exec (.jsr 5) State.reset = .next t ∧ setsCondFrom (.jsr 5) = none ∧
    ∀ m o, Instr.jsr 5 ≠ .br m o := ⟨_, rfl, rfl, nofun⟩
theorem witness_RegisterWriters : ∃ t, exec .trapIn (keys [.key 0x41]) = .next t ∧ writesReg .trapIn 1 = false :=
  ⟨_, rfl, rfl⟩
theorem witness_MemoryWriters_cell : ∃ t, exec (.ld 1 0) (at' 0xFE00) = .next t ∧ storesWord (.ld 1 0) = false ∧
    (0xFE01 : Word) ≠ 0xFE00 ∧ (0xFE01 : Word) ≠ 0xFE02 := ⟨_, rfl, rfl, by decide, by decide⟩
theorem witness_MemoryWriters_noRead : ∃ t, exec .trapHalt State.reset = .next t ∧ storesWord .trapHalt = false ∧
    readsMemory .trapHalt = false := ⟨_, rfl, rfl, rfl⟩
theorem witness_StreamsOnlyAdvance : ∃ t, step (start 0xF023 (keys [.key 0x41])) = .next t := ⟨_, rfl⟩
theorem witness_ConsoleWriters : ∃ t, exec .trapGetc (keys [.key 0x41]) = .next t ∧ writesConsole .trapGetc = false :=
  ⟨_, rfl, rfl⟩
theorem witness_RunClearedOnlyByHalt : ∃ t, exec (.trapOther 0x30) State.reset = .next t ∧
    Instr.trapOther 0x30 ≠ .trapHalt := ⟨_, rfl, nofun⟩
theorem witness_RunClearedOnlyByHalt_step : ∃ t, step State.reset = .next t ∧ t.run = true := ⟨_, rfl, rfl⟩
theorem witness_IllegalEncodings : ∃ t, State.reset.fault = none ∧ exec (decode 0xF526) State.reset = .next t ∧
    t.fault = some (.invalidTrapvect 0x26) := ⟨_, rfl, rfl, rfl⟩
theorem witness_FaultStatusIsFinal : ∃ t, step (State.reset.raise .hostIOError) = .next t ∧
    (State.reset.raise .hostIOError).fault ≠ none := ⟨_, rfl, nofun⟩
theorem witness_FaultStatusIsFinal_unset : ∃ t, step State.reset = .next t ∧ State.reset.fault = none := ⟨_, rfl, rfl⟩
theorem witness_StoppedCoreKeepsItsState : State.run { State.reset with run := false } = false ∧
    (State.reset.raise .hostIOError).fault ≠ none := ⟨rfl, nofun⟩
theorem witness_NextFetchSeesStore : Ready State.reset ∧ State.reset.pc ≠ 0xFE00 := ⟨ready_reset, by decide⟩
theorem witness_DecodeEncodeRoundTrip : (Instr.trapOther 0x1F).wellFormed = true ∧ (Instr.ldr 7 7 0x3F).wellFormed = true := by
  decide
theorem witness_ImageCornerCases : ([0x3000] : List Word) ≠ [] := nofun
theorem witness_BootKeepsInvariant : ∃ t, boot (some [0x30, 0x00, 0xF0, 0x25]) = .ok t := ⟨_, rfl⟩

/-- A core held in `GETC`. -/
def heldCore : State := { (State.reset.setReg 7 0x3000) with hold := some .getc }

theorem witness_StepKeepsInvariant : ∃ t, Inv heldCore ∧ step heldCore = .next t :=
  ⟨_, ⟨by decide, fun _ => by decide, nofun, nofun, nofun⟩, rfl⟩

end Sys2Proof.Tests
end

