-- ==== Sys2Proof/Proofs/SignExtension.lean ====
section
/-! SUPPORT. Sign extension as numbers (R14), for every field width up to 16, and the obligation on it. -/

namespace Sys2Proof.Machine

/-- The sign bit of a field in the words of R14. -/
theorem msb_eq_false_iff_toNat_lt {n : Nat} (v : BitVec n) : v.msb = false ↔ v.toNat < 2 ^ (n - 1) := by
  rw [BitVec.msb_eq_decide, decide_eq_false_iff_not, not_le]

/-- The word `sext v` read unsigned: R14's formula. -/
theorem toNat_sext {n : Nat} (v : BitVec n) (h : n ≤ 16) :
    (sext v).toNat = if v.toNat < 2 ^ (n - 1) then v.toNat else v.toNat ||| (0xFFFF <<< n) % 65536 := by
  simp only [← msb_eq_false_iff_toNat_lt]
  cases hm : v.msb <;> simp [sext, hm, BitVec.toNat_setWidth_of_le h]

/-- The word `sext v` read signed: extension keeps the field's two's complement value. -/
theorem toInt_sext {n : Nat} (v : BitVec n) (h : n ≤ 16) :
    (sext v).toInt = if v.toNat < 2 ^ (n - 1) then (v.toNat : Int) else (v.toNat : Int) - 2 ^ n := by
  rw [sext_eq_signExtend v h, BitVec.toInt_signExtend_of_le h, BitVec.toInt_eq_msb_cond]
  simp only [← msb_eq_false_iff_toNat_lt]
  cases v.msb with
  | false => rfl
  | true => simp

/-- Settles O1: each of the four widths is at most 16, where both readings of `sext` are known. -/
theorem signExtension : Obligations.SignExtension := by
  unfold Obligations.SignExtension
  intro n hn v
  have hle : n ≤ 16 := by
    have hall : ∀ m ∈ [5, 6, 9, 11], m ≤ 16 := by decide
    exact hall n hn
  exact ⟨toNat_sext v hle, toInt_sext v hle⟩

end Sys2Proof.Machine
end

