-- ==== Sys2Proof/Proofs/Setcc.lean ====
section
/-! SUPPORT. When a word has each of the three conditions, by its bit 15 (R26), and the obligation on `setcc`. -/

namespace Sys2Proof.Machine

open Sys2Proof.Safety

/-- The masks of R25 tell the conditions apart. -/
theorem Cond.mask_inj (c d : Cond) : c.mask = d.mask ↔ c = d := by
  cases c <;> cases d <;> decide

theorem condOf_eq_n_iff (v : Word) : condOf v = .n ↔ v.getLsbD 15 = true := by
  unfold condOf
  split
  next h => exact iff_of_true rfl h
  next h => exact iff_of_false (by split <;> nofun) h

/-- R26 tests bit 15 before it tests for 0; the word 0 reaches the second test because its bit 15 is 0. -/
theorem condOf_eq_z_iff (v : Word) : condOf v = .z ↔ v = 0 := by
  constructor
  · intro h
    unfold condOf at h
    split at h
    · cases h
    · split at h
      · assumption
      · cases h
  · rintro rfl
    rfl

/-- `P` is the condition left over by the other two. -/
theorem condOf_eq_p_iff (v : Word) : condOf v = .p ↔ v.getLsbD 15 = false ∧ v ≠ 0 := by
  have hleft (c : Cond) : c = .p ↔ c ≠ .n ∧ c ≠ .z := by cases c <;> simp
  rw [hleft, Ne, Ne, condOf_eq_n_iff, condOf_eq_z_iff, Bool.not_eq_true]

/-- Settles O2: the masks are those of the three conditions, and `setcc` writes no other field. -/
theorem setccCases : Obligations.SetccCases := by
  unfold Obligations.SetccCases
  intro s v
  have hmask (c : Cond) : (s.setCc v).cond.mask = c.mask ↔ condOf v = c := Cond.mask_inj _ c
  have hcontrol : SameControl s (s.setCc v) := ⟨s.setCc_run v, s.setCc_fault v, s.setCc_hold v⟩
  have hports : SamePorts s (s.setCc v) :=
    ⟨s.setCc_console v, s.setCc_kbd v, s.setCc_kbdThen v, s.setCc_conPort v⟩
  exact ⟨(hmask .n).trans (condOf_eq_n_iff v), (hmask .z).trans (condOf_eq_z_iff v),
    (hmask .p).trans (condOf_eq_p_iff v), s.reg_setCc v, s.setCc_pc v, s.cell_setCc v, hcontrol, hports⟩

end Sys2Proof.Machine
end

