-- ==== Sys2Proof/Proofs/MemWrite.lean ====
section
/-! SUPPORT. The whole effect of `MemWrite`, its frame included (R45), and the obligation on it. -/

namespace Sys2Proof.Machine

open Sys2Proof.Safety

theorem memWrite_sameControl (s : State) (a v : Word) : SameControl s (memWrite a v s) where
  run := memWrite_run s a v
  fault := memWrite_fault s a v
  hold := memWrite_hold s a v

/-- No store polls the keyboard or takes one of the host's answers, whatever its address. -/
theorem memWrite_samePorts (s : State) (a v : Word) : SamePorts s (memWrite a v s) where
  console := memWrite_console s a v
  kbd := memWrite_kbd s a v
  kbdThen := memWrite_kbdThen s a v
  conPort := memWrite_conPort s a v

/-- `MemWrite` as the store that the rules of `ST`, `STI` and `STR` speak of. The address is not split
on: the read after a write holds at 0xFE00 and 0xFE02 as at any other. -/
theorem memWrite_storesWord (s : State) (a v : Word) : StoresWord s (memWrite a v s) a v where
  memory := cell_memWrite s a v
  regs := reg_memWrite s a v
  pc := memWrite_pc s a v
  cond := memWrite_cond s a v
  control := memWrite_sameControl s a v
  ports := memWrite_samePorts s a v

/-- Settles O5: the read-after-write law of memory gives the cells, the update of one field the frame. -/
theorem memWriteRule : Obligations.MemWriteRule := by
  unfold Obligations.MemWriteRule
  exact memWrite_storesWord

end Sys2Proof.Machine
end

