-- ==== Sys2Proof/Proofs/PcIncrement.lean ====
section
/-! SUPPORT. The fetch of a ready core increments `pc`, and what the other instructions leave of it (R24, R80, R82), and the obligation on the increment. -/

namespace Sys2Proof.Machine

open Sys2Proof.Safety

/-- A fetch whose read goes on: the word read, and `pc` one more than the address it was read from. -/
theorem fetch_of_readOf {s u : State} {w : Word} (h : ReadOf s s.pc w u) :
    fetch s = .done w (u.setPc (s.pc + 1)) := by
  rw [fetch, memRead_of_readOf h, Res.bind_done, (readOf_quiet h).pc]

/-- The step of a ready core (R80). -/
theorem step_of_ready {s u : State} {w : Word} (hs : Ready s) (h : ReadOf s s.pc w u) :
    step s = exec (decode w) (u.setPc (s.pc + 1)) := by
  obtain ⟨hrun, hfault, hhold⟩ := hs
  simp only [step, cycle, (not_stopped_iff s).2 ⟨hrun, hfault⟩, hhold, Bool.false_eq_true, if_false,
    fetch_of_readOf h, Res.out_done]

/-- A trap's linkage copies `pc` and does not write it (R153). -/
@[simp] theorem entry_pc (i : Instr) (s : State) : (entry i s).pc = s.pc := by
  unfold entry
  split
  next => exact enterTrap_pc s
  next => rfl

/-- Only the two kinds of transfer write `pc`; every other effect keeps it, the failed and the held ones too. -/
theorem Effect.pc_eq {i : Instr} {s t : State} (hi : writesPc i = false) (h : Effect i s t) : t.pc = s.pc := by
  cases h with
  | goes p hp | calls p hp => rw [hi] at hp; cases hp
  | badVector v => exact s.raise_pc _
  | result v _ hb | plain _ hb | stores a v _ hb | halts _ hb | fails hb | held hb => exact hb.quiet.pc

/-- An instruction other than `BR`, `JMP`, `JSR` and `JSRR` keeps `pc` (R24). -/
theorem exec_pc {i : Instr} {s t : State} (hi : writesPc i = false) (h : exec i s = .next t) : t.pc = s.pc :=
  ((exec_effect h).pc_eq hi).trans (entry_pc i s)

/-- Settles O40: the instruction runs from the state its fetch leaves, `pc` incremented there, and keeps that
`pc` unless it is one of the four that write it. -/
theorem pcIncrementedOncePerStep : Obligations.PcIncrementedOncePerStep := by
  unfold Obligations.PcIncrementedOncePerStep
  intro s u w hs hr
  have hstep : step s = exec (decode w) (u.setPc (s.pc + 1)) := step_of_ready hs hr
  refine ⟨⟨u.setPc (s.pc + 1), u.setPc_pc _, hstep⟩, fun t hi ht => ?_⟩
  exact exec_pc hi (hstep.symm.trans ht)

end Sys2Proof.Machine
end

