-- ==== Sys2Proof/Proofs/Result.lean ====
section
/-! SUPPORT. The result of an instruction that sets `cond`: its whole effect, and that `cond` follows it whichever instruction wrote it (R27, R94), and the obligation on that. -/

namespace Sys2Proof.Machine

open Sys2Proof.Safety

/-- A result as the rules of the instructions that set `cond` speak of it. -/
theorem State.setResult_writesResult (s : State) (dr : Reg) (v : Word) :
    WritesResult s (s.setResult dr v) dr v where
  regs q := s.reg_setResult dr q v
  cond := condOf_condIs v
  pc := s.setResult_pc dr v
  memory := s.cell_setResult dr v
  control := ⟨s.setResult_run dr v, s.setResult_fault dr v, s.setResult_hold dr v⟩
  ports := ⟨s.setResult_console dr v, s.setResult_kbd dr v, s.setResult_kbdThen dr v, s.setResult_conPort dr v⟩

theorem condIs_of_writesResult {s t : State} {dr : Reg} {v : Word} (h : WritesResult s t dr v) :
    CondIs t.cond (t.reg dr) := by
  rw [h.regs dr, if_pos rfl]
  exact h.cond

/-- No instruction that may transfer control sets `cond` (R24, R27). -/
theorem setsCondFrom_eq_none_of_writesPc {i : Instr} (h : writesPc i = true) : setsCondFrom i = none := by
  cases i with
  | br _ _ | jmp _ | jsr _ | jsrr _ => rfl
  | _ => cases h

/-- No store sets `cond` (R27, R48). -/
theorem setsCondFrom_eq_none_of_storesWord {i : Instr} (h : storesWord i = true) : setsCondFrom i = none := by
  cases i with
  | st _ _ | sti _ _ | str _ _ _ => rfl
  | _ => cases h

/-- An instruction that sets `cond` has written its result, failed, or is held: it has no other effect. -/
theorem Effect.result_of_setsCondFrom {i : Instr} {dr : Reg} {s t : State} (hi : setsCondFrom i = some dr)
    (h : Effect i s t) : (∃ (u : State) (v : Word), t = u.setResult dr v) ∨ t.fault ≠ none ∨ t.hold ≠ none := by
  have hset : setsCondFrom i ≠ none := by simp [hi]
  cases h with
  | result v hd =>
    obtain rfl := Option.some.inj (hd.symm.trans hi)
    exact .inl ⟨_, v, rfl⟩
  | plain hd => exact absurd hd hset
  | goes _ hp | calls _ hp => exact absurd (setsCondFrom_eq_none_of_writesPc hp) hset
  | stores _ _ hw => exact absurd (setsCondFrom_eq_none_of_storesWord hw) hset
  | halts hh => exact absurd (hh ▸ rfl) hset
  | badVector v hv => exact absurd (hv ▸ rfl) hset
  | fails _ hf => exact .inr (.inl (by simp [hf]))
  | held _ _ _ hw =>
    obtain ⟨w, hw⟩ := hw
    exact .inr (.inr (by simp [hw]))

/-- Settles O41: a next state without fault and hold can only be the one that wrote the result. -/
theorem condMatchesDestination : Obligations.CondMatchesDestination := by
  unfold Obligations.CondMatchesDestination
  intro i dr s t hi ht _ hfault hhold
  obtain ⟨u, v, rfl⟩ | hf | hh := (exec_effect ht).result_of_setsCondFrom hi
  · exact condIs_of_writesResult (u.setResult_writesResult dr v)
  · exact absurd hfault hf
  · exact absurd hhold hh

end Sys2Proof.Machine
end

