-- ==== Sys2Proof/Proofs/Operate.lean ====
section
/-! SUPPORT. `ADD`, `AND` and `NOT`: what their words decode to, their results as numbers, and the obligations on them (R90 to R92). -/

namespace Sys2Proof.Machine

open Sys2Proof.Safety

/-! ### Their words (R63) -/

theorem decode_addReg (dr sr1 sr2 : Reg) (x : BitVec 2) :
    decode (0b0001#4 ++ regBits dr ++ regBits sr1 ++ 0b0#1 ++ x ++ regBits sr2) = .addReg dr sr1 sr2 := by
  obtain ⟨hop, hdr, hsr1, hmode, hsr2⟩ := layout_sr2 0b0001#4 (regBits dr) (regBits sr1) 0b0#1 x (regBits sr2)
  rw [decode, hop, hmode, regField_regBits _ _ _ hdr, regField_regBits _ _ _ hsr1, regField_regBits _ _ _ hsr2]
  rfl

theorem decode_addImm (dr sr1 : Reg) (imm5 : BitVec 5) :
    decode (0b0001#4 ++ regBits dr ++ regBits sr1 ++ 0b1#1 ++ imm5) = .addImm dr sr1 imm5 := by
  obtain ⟨hop, hdr, hsr1, hmode, himm⟩ := layout_imm5 0b0001#4 (regBits dr) (regBits sr1) 0b1#1 imm5
  rw [decode, hop, hmode, regField_regBits _ _ _ hdr, regField_regBits _ _ _ hsr1, himm]
  rfl

theorem decode_andReg (dr sr1 sr2 : Reg) (x : BitVec 2) :
    decode (0b0101#4 ++ regBits dr ++ regBits sr1 ++ 0b0#1 ++ x ++ regBits sr2) = .andReg dr sr1 sr2 := by
  obtain ⟨hop, hdr, hsr1, hmode, hsr2⟩ := layout_sr2 0b0101#4 (regBits dr) (regBits sr1) 0b0#1 x (regBits sr2)
  rw [decode, hop, hmode, regField_regBits _ _ _ hdr, regField_regBits _ _ _ hsr1, regField_regBits _ _ _ hsr2]
  rfl

theorem decode_andImm (dr sr1 : Reg) (imm5 : BitVec 5) :
    decode (0b0101#4 ++ regBits dr ++ regBits sr1 ++ 0b1#1 ++ imm5) = .andImm dr sr1 imm5 := by
  obtain ⟨hop, hdr, hsr1, hmode, himm⟩ := layout_imm5 0b0101#4 (regBits dr) (regBits sr1) 0b1#1 imm5
  rw [decode, hop, hmode, regField_regBits _ _ _ hdr, regField_regBits _ _ _ hsr1, himm]
  rfl

theorem decode_not (dr sr1 : Reg) (x : BitVec 6) :
    decode (0b1001#4 ++ regBits dr ++ regBits sr1 ++ x) = .not dr sr1 := by
  obtain ⟨hop, hdr, hsr1, -⟩ := layout_offset6 0b1001#4 (regBits dr) (regBits sr1) x
  rw [decode, hop, regField_regBits _ _ _ hdr, regField_regBits _ _ _ hsr1]
  rfl

/-! ### Their results as numbers -/

theorem add_eq_ofNat_mod (a b : Word) : a + b = BitVec.ofNat 16 ((a.toNat + b.toNat) % 65536) := by
  apply BitVec.eq_of_toNat_eq
  simp [BitVec.toNat_add]

theorem and_eq_ofNat (a b : Word) : a &&& b = BitVec.ofNat 16 (a.toNat &&& b.toNat) := by
  rw [← BitVec.toNat_and, BitVec.ofNat_toNat, BitVec.setWidth_eq]

theorem not_eq_ofNat (a : Word) : ~~~ a = BitVec.ofNat 16 (0xFFFF - a.toNat) := by
  have h : (~~~ a).toNat = 0xFFFF - a.toNat := BitVec.toNat_not
  rw [← h, BitVec.ofNat_toNat, BitVec.setWidth_eq]

/-! ### The obligations -/

/-- Settles O8: the modulus of R90 is the word's own, so the sum of words is the wrapped sum of numbers. -/
theorem addCompletes : Obligations.AddCompletes := by
  unfold Obligations.AddCompletes
  intro s dr sr1
  refine ⟨fun sr2 => ⟨decode_addReg dr sr1 sr2, _, rfl, ?_⟩, fun imm5 => ⟨decode_addImm dr sr1 imm5, _, rfl, ?_⟩⟩
  all_goals
    rw [← add_eq_ofNat_mod]
    exact s.setResult_writesResult dr _

/-- Settles O9: the bitwise and of words is that of their numbers, the immediate extended before it. -/
theorem andCompletes : Obligations.AndCompletes := by
  unfold Obligations.AndCompletes
  intro s dr sr1
  refine ⟨fun sr2 => ⟨decode_andReg dr sr1 sr2, _, rfl, ?_⟩, fun imm5 => ⟨decode_andImm dr sr1 imm5, _, rfl, ?_⟩⟩
  all_goals
    rw [← and_eq_ofNat]
    exact s.setResult_writesResult dr _

/-- Settles O10: the complement of a word is its distance to 0xFFFF. -/
theorem notCompletes : Obligations.NotCompletes := by
  unfold Obligations.NotCompletes
  intro s dr sr1
  refine ⟨decode_not dr sr1, _, rfl, ?_⟩
  rw [← not_eq_ofNat]
  exact s.setResult_writesResult dr _

end Sys2Proof.Machine
end

