-- ==== Sys2Proof/Proofs/Control.lean ====
section
/-! SUPPORT. `BR`, `JMP`, `JSR` and `JSRR`: what their words decode to, the two kinds of transfer with their frames, when a branch is taken, and the obligations on them (R100 to R104). -/

namespace Sys2Proof.Machine

open Sys2Proof.Safety

/-! ### Their words (R63) -/

theorem decode_br (mask : BitVec 3) (offset9 : BitVec 9) :
    decode (0b0000#4 ++ mask ++ offset9) = .br mask offset9 := by
  obtain ⟨hop, hmask, hoff⟩ := layout_offset9 0b0000#4 mask offset9
  rw [decode, hop, hmask, hoff]
  rfl

theorem decode_jmp (baseR : Reg) (x : BitVec 3) (y : BitVec 6) :
    decode (0b1100#4 ++ x ++ regBits baseR ++ y) = .jmp baseR := by
  obtain ⟨hop, -, hbase, -⟩ := layout_offset6 0b1100#4 x (regBits baseR) y
  rw [decode, hop, regField_regBits _ _ _ hbase]
  rfl

theorem decode_jsr (offset11 : BitVec 11) :
    decode (0b0100#4 ++ 0b1#1 ++ offset11) = .jsr offset11 := by
  obtain ⟨hop, hmode, hoff⟩ := layout_offset11 0b0100#4 0b1#1 offset11
  rw [decode, hop, hmode, hoff]
  rfl

theorem decode_jsrr (baseR : Reg) (x : BitVec 2) (y : BitVec 6) :
    decode (0b0100#4 ++ 0b0#1 ++ x ++ regBits baseR ++ y) = .jsrr baseR := by
  obtain ⟨hop, hmode, hbase⟩ := layout_jsrr 0b0100#4 0b0#1 x (regBits baseR) y
  rw [decode, hop, hmode, regField_regBits _ _ _ hbase]
  rfl

/-! ### The two kinds of transfer -/

/-- Writing `pc` is the whole effect of a plain transfer. -/
theorem State.setPc_goesTo (s : State) (target : Word) : GoesTo s (s.setPc target) target where
  pc := s.setPc_pc target
  regs := s.reg_setPc target
  cond := s.setPc_cond target
  memory := s.cell_setPc target
  control := ⟨s.setPc_run target, s.setPc_fault target, s.setPc_hold target⟩
  ports := ⟨s.setPc_console target, s.setPc_kbd target, s.setPc_kbdThen target, s.setPc_conPort target⟩

/-- The linkage is written, then `pc`: the target `JSRR` reads in between may be any word. -/
theorem State.link_setPc_callsTo (s : State) (target : Word) :
    CallsTo s ((s.setReg Reg.link s.pc).setPc target) target where
  pc := State.setPc_pc _ target
  regs r := s.reg_setReg Reg.link r s.pc
  cond := s.setReg_cond Reg.link s.pc
  memory := s.cell_setReg Reg.link s.pc
  control := ⟨s.setReg_run Reg.link s.pc, s.setReg_fault Reg.link s.pc, s.setReg_hold Reg.link s.pc⟩
  ports := ⟨s.setReg_console Reg.link s.pc, s.setReg_kbd Reg.link s.pc, s.setReg_kbdThen Reg.link s.pc,
    s.setReg_conPort Reg.link s.pc⟩

theorem reg_link_of_callsTo {s t : State} {target : Word} (h : CallsTo s t target) : t.reg 7 = s.pc := by
  rw [h.regs 7, if_pos rfl]

/-! ### What each of the four does -/

/-- A mask meets a one-hot condition in that condition's bit (R25, R61). -/
theorem branchTaken_iff (mask : BitVec 3) (c : Cond) :
    branchTaken mask c = true ↔ (c = .n ∧ mask.getLsbD 2 = true) ∨ (c = .z ∧ mask.getLsbD 1 = true) ∨
      (c = .p ∧ mask.getLsbD 0 = true) := by
  revert mask
  cases c with
  | n => decide
  | z => decide
  | p => decide

/-- A branch not taken writes `pc` as it was, so both outcomes are a plain transfer. -/
theorem exec_br (mask : BitVec 3) (offset9 : BitVec 9) (s : State) :
    exec (.br mask offset9) s =
      .next (s.setPc (if branchTaken mask s.cond then s.pc + sext offset9 else s.pc)) := by
  rw [exec, execBr]
  split
  next => rfl
  next => rfl

theorem exec_jmp (baseR : Reg) (s : State) : exec (.jmp baseR) s = .next (s.setPc (s.reg baseR)) := rfl

theorem exec_jsr (offset11 : BitVec 11) (s : State) :
    exec (.jsr offset11) s = .next ((s.setReg Reg.link s.pc).setPc (s.pc + sext offset11)) := rfl

/-- The base register is read after the linkage, so R7 as base gives the new R7 (R104). -/
theorem exec_jsrr (baseR : Reg) (s : State) :
    exec (.jsrr baseR) s =
      .next ((s.setReg Reg.link s.pc).setPc (if baseR = 7 then s.pc else s.reg baseR)) := by
  rw [exec, execJsrr, State.reg_setReg]

/-- Both calls leave the address of the word after them in R7 (R102). -/
theorem reg_link_of_call {i : Instr} {s u : State} (hi : (∃ o, i = .jsr o) ∨ ∃ b, i = .jsrr b)
    (h : exec i s = .next u) : u.reg 7 = s.pc := by
  obtain ⟨o, rfl⟩ | ⟨b, rfl⟩ := hi
  · obtain rfl := next_inj ((exec_jsr o s).symm.trans h)
    exact reg_link_of_callsTo (s.link_setPc_callsTo _)
  · obtain rfl := next_inj ((exec_jsrr b s).symm.trans h)
    exact reg_link_of_callsTo (s.link_setPc_callsTo _)

/-! ### The obligations -/

/-- Settles O11: the three mask bits are the test of the one-hot condition, and both outcomes only write `pc`. -/
theorem brCompletes : Obligations.BrCompletes := by
  unfold Obligations.BrCompletes
  intro s mask offset9
  refine ⟨decode_br mask offset9, _, exec_br mask offset9 s, ?_⟩
  simp only [← branchTaken_iff]
  exact s.setPc_goesTo _

/-- Settles O12: `RET` reads the R7 that either call wrote and the subroutine kept. -/
theorem jmpAndRetComplete : Obligations.JmpAndRetComplete := by
  unfold Obligations.JmpAndRetComplete
  refine ⟨fun s baseR => ⟨decode_jmp baseR, _, exec_jmp baseR s, s.setPc_goesTo _⟩,
    decode_jmp 7 0b000 0b000000, ?_⟩
  intro i s u v hi hu hv
  have hret : v.reg 7 = s.pc := hv.trans (reg_link_of_call hi hu)
  refine ⟨_, exec_jmp 7 v, ?_⟩
  rw [hret]
  exact v.setPc_goesTo s.pc

/-- Settles O13: the linkage does not touch `pc`, so R7 and the target come from the same one. -/
theorem jsrCompletes : Obligations.JsrCompletes := by
  unfold Obligations.JsrCompletes
  intro s offset11
  exact ⟨decode_jsr offset11, _, exec_jsr offset11 s, s.link_setPc_callsTo _⟩

/-- Settles O14: the linkage first, then the base register, which is the linkage itself when it is R7. -/
theorem jsrrCompletes : Obligations.JsrrCompletes := by
  unfold Obligations.JsrrCompletes
  intro s baseR
  exact ⟨decode_jsrr baseR, _, exec_jsrr baseR s, s.link_setPc_callsTo _⟩

end Sys2Proof.Machine
end

