-- ==== Sys2Proof/Proofs/LoadStore.lean ====
section
/-! SUPPORT. `LD`, `LDI`, `LDR`, `LEA`, `ST`, `STI` and `STR`: what their words decode to, what each leaves once its reads give a word, and the obligations on them (R111 to R121). -/

namespace Sys2Proof.Machine

open Sys2Proof.Safety

/-! ### Their words (R63) -/

/-- The fields of a word with a register and a nine-bit offset. -/
theorem fields_offset9 (op : BitVec 4) (r : Reg) (o : BitVec 9) :
    (op ++ regBits r ++ o : Word).extractLsb' 12 4 = op ∧ regField (op ++ regBits r ++ o) 9 = r ∧
      (op ++ regBits r ++ o : Word).extractLsb' 0 9 = o := by
  obtain ⟨hop, hr, ho⟩ := layout_offset9 op (regBits r) o
  exact ⟨hop, regField_regBits _ 9 r hr, ho⟩

/-- The fields of a word with a register, a base register and a six-bit offset. -/
theorem fields_offset6 (op : BitVec 4) (r q : Reg) (o : BitVec 6) :
    (op ++ regBits r ++ regBits q ++ o : Word).extractLsb' 12 4 = op ∧
      regField (op ++ regBits r ++ regBits q ++ o) 9 = r ∧
      regField (op ++ regBits r ++ regBits q ++ o) 6 = q ∧
      (op ++ regBits r ++ regBits q ++ o : Word).extractLsb' 0 6 = o := by
  obtain ⟨hop, hr, hq, ho⟩ := layout_offset6 op (regBits r) (regBits q) o
  exact ⟨hop, regField_regBits _ 9 r hr, regField_regBits _ 6 q hq, ho⟩

theorem decode_ld (dr : Reg) (offset9 : BitVec 9) :
    decode (0b0010#4 ++ regBits dr ++ offset9) = .ld dr offset9 := by
  obtain ⟨hop, hdr, hoff⟩ := fields_offset9 0b0010#4 dr offset9
  rw [decode, hop, hdr, hoff]
  rfl

theorem decode_st (sr : Reg) (offset9 : BitVec 9) :
    decode (0b0011#4 ++ regBits sr ++ offset9) = .st sr offset9 := by
  obtain ⟨hop, hsr, hoff⟩ := fields_offset9 0b0011#4 sr offset9
  rw [decode, hop, hsr, hoff]
  rfl

theorem decode_ldi (dr : Reg) (offset9 : BitVec 9) :
    decode (0b1010#4 ++ regBits dr ++ offset9) = .ldi dr offset9 := by
  obtain ⟨hop, hdr, hoff⟩ := fields_offset9 0b1010#4 dr offset9
  rw [decode, hop, hdr, hoff]
  rfl

theorem decode_sti (sr : Reg) (offset9 : BitVec 9) :
    decode (0b1011#4 ++ regBits sr ++ offset9) = .sti sr offset9 := by
  obtain ⟨hop, hsr, hoff⟩ := fields_offset9 0b1011#4 sr offset9
  rw [decode, hop, hsr, hoff]
  rfl

theorem decode_lea (dr : Reg) (offset9 : BitVec 9) :
    decode (0b1110#4 ++ regBits dr ++ offset9) = .lea dr offset9 := by
  obtain ⟨hop, hdr, hoff⟩ := fields_offset9 0b1110#4 dr offset9
  rw [decode, hop, hdr, hoff]
  rfl

theorem decode_ldr (dr baseR : Reg) (offset6 : BitVec 6) :
    decode (0b0110#4 ++ regBits dr ++ regBits baseR ++ offset6) = .ldr dr baseR offset6 := by
  obtain ⟨hop, hdr, hbase, hoff⟩ := fields_offset6 0b0110#4 dr baseR offset6
  rw [decode, hop, hdr, hbase, hoff]
  rfl

theorem decode_str (sr baseR : Reg) (offset6 : BitVec 6) :
    decode (0b0111#4 ++ regBits sr ++ regBits baseR ++ offset6) = .str sr baseR offset6 := by
  obtain ⟨hop, hsr, hbase, hoff⟩ := fields_offset6 0b0111#4 sr baseR offset6
  rw [decode, hop, hsr, hbase, hoff]
  rfl

/-! ### What each of the seven does -/

theorem exec_ld {s u : State} {v : Word} (dr : Reg) {offset9 : BitVec 9}
    (h : ReadOf s (s.pc + sext offset9) v u) : exec (.ld dr offset9) s = .next (u.setResult dr v) := by
  rw [exec, execLd, State.pcRel9, memRead_of_readOf h, Res.out_done]

/-- The data is read in the state the pointer's read leaves (R112). -/
theorem exec_ldi {s u w : State} {p v : Word} (dr : Reg) {offset9 : BitVec 9}
    (hp : ReadOf s (s.pc + sext offset9) p u) (hv : ReadOf u p v w) :
    exec (.ldi dr offset9) s = .next (w.setResult dr v) := by
  rw [exec, execLdi, State.pcRel9, memRead_of_readOf hp, Res.bind_done, memRead_of_readOf hv, Res.out_done]

theorem exec_ldr {s u : State} {v : Word} (dr : Reg) {baseR : Reg} {offset6 : BitVec 6}
    (h : ReadOf s (s.reg baseR + sext offset6) v u) :
    exec (.ldr dr baseR offset6) s = .next (u.setResult dr v) := by
  rw [exec, execLdr, State.baseOff, memRead_of_readOf h, Res.out_done]

theorem exec_lea (dr : Reg) (offset9 : BitVec 9) (s : State) :
    exec (.lea dr offset9) s = .next (s.setResult dr (s.pc + sext offset9)) := rfl

theorem exec_st (sr : Reg) (offset9 : BitVec 9) (s : State) :
    exec (.st sr offset9) s = .next (memWrite (s.pc + sext offset9) (s.reg sr) s) := rfl

/-- The pointer's read writes no register, so the word stored is the one SR held before it (R119). -/
theorem exec_sti {s u : State} {p : Word} (sr : Reg) {offset9 : BitVec 9}
    (h : ReadOf s (s.pc + sext offset9) p u) : exec (.sti sr offset9) s = .next (memWrite p (s.reg sr) u) := by
  rw [exec, execSti, State.pcRel9, memRead_of_readOf h, Res.out_done, (readOf_quiet h).reg]

theorem exec_str (sr baseR : Reg) (offset6 : BitVec 6) (s : State) :
    exec (.str sr baseR offset6) s = .next (memWrite (s.reg baseR + sext offset6) (s.reg sr) s) := rfl

/-! ### `LEA` then `LDR` (R121) -/

@[simp] theorem sext_zero {n : Nat} : sext (0 : BitVec n) = 0 := by
  simp [sext]

/-- A second result in the same register, `cond` with it, leaves nothing of the first. -/
theorem State.setResult_setPc_setResult (s : State) (dr : Reg) (a p v : Word) :
    ((s.setResult dr a).setPc p).setResult dr v = (s.setResult dr v).setPc p := by
  simp [State.setResult, State.setReg, State.setCc, State.setPc]

/-- The base `LDR` finds is the address `LEA` computed, whatever `pc` is by then. -/
theorem reg_add_sext_zero_of_lea (s : State) (dr : Reg) (a p : Word) :
    ((s.setResult dr a).setPc p).reg dr + sext (0 : BitVec 6) = a := by
  rw [sext_zero, add_zero, State.reg_setPc, State.reg_setResult, if_pos rfl]

/-- `LDR DR, DR, #0` where `LEA` has left the address `a` in DR reads the cell at `a` as it was before `LEA`. -/
theorem exec_ldr_of_lea (s : State) (dr : Reg) {a : Word} (p : Word) (ha : a ≠ 0xFE00) :
    exec (.ldr dr dr 0) ((s.setResult dr a).setPc p) = .next ((s.setResult dr (s.cell a)).setPc p) := by
  rw [← s.setResult_setPc_setResult dr a p (s.cell a)]
  apply exec_ldr
  rw [reg_add_sext_zero_of_lea]
  exact .plain ha

/-! ### The obligations -/

/-- Settles O15: the read of `LD` is the one the rule speaks of, and its word becomes the result. -/
theorem ldCompletes : Obligations.LdCompletes := by
  unfold Obligations.LdCompletes
  exact fun dr offset9 => ⟨decode_ld dr offset9, fun _ u v h => ⟨_, exec_ld dr h, u.setResult_writesResult dr v⟩⟩

/-- Settles O16: the two reads follow each other, and the second's word becomes the result. -/
theorem ldiCompletes : Obligations.LdiCompletes := by
  unfold Obligations.LdiCompletes
  exact fun dr offset9 => ⟨decode_ldi dr offset9,
    fun _ _ w _ v hp hv => ⟨_, exec_ldi dr hp hv, w.setResult_writesResult dr v⟩⟩

/-- Settles O17: the address is computed before the result is written, so the base may be the destination. -/
theorem ldrCompletes : Obligations.LdrCompletes := by
  unfold Obligations.LdrCompletes
  exact fun dr baseR offset6 => ⟨decode_ldr dr baseR offset6,
    fun _ u v h => ⟨_, exec_ldr dr h, u.setResult_writesResult dr v⟩⟩

/-- Settles O18: the address itself is the result, and no read comes before it. -/
theorem leaCompletes : Obligations.LeaCompletes := by
  unfold Obligations.LeaCompletes
  exact fun s dr offset9 => ⟨decode_lea dr offset9, _, exec_lea dr offset9 s, s.setResult_writesResult dr _⟩

/-- Settles O19: `MemWrite` is the whole effect, with the same frame at every address. -/
theorem stCompletes : Obligations.StCompletes := by
  unfold Obligations.StCompletes
  exact fun s sr offset9 => ⟨decode_st sr offset9, _, exec_st sr offset9 s, memWrite_storesWord s _ _⟩

/-- Settles O20: the store goes to the pointer and starts from the state the pointer's read leaves. -/
theorem stiCompletes : Obligations.StiCompletes := by
  unfold Obligations.StiCompletes
  exact fun sr offset9 => ⟨decode_sti sr offset9,
    fun s u p h => ⟨_, exec_sti sr h, memWrite_storesWord u p (s.reg sr)⟩⟩

/-- Settles O21: address and word are both read from the registers before the store, SR and base the same too. -/
theorem strCompletes : Obligations.StrCompletes := by
  unfold Obligations.StrCompletes
  exact fun s sr baseR offset6 => ⟨decode_str sr baseR offset6, _, exec_str sr baseR offset6 s,
    memWrite_storesWord s _ _⟩

/-- Settles O23: `LDR` reads the cell `LD` reads, and its result replaces the address `LEA` left, so the two ways
differ in `pc` alone. -/
theorem leaThenLdrEqualsLd : Obligations.LeaThenLdrEqualsLd := by
  unfold Obligations.LeaThenLdrEqualsLd
  intro s dr offset9 hne
  have hld : exec (.ld dr offset9) s = .next (s.setResult dr (s.cell (s.pc + sext offset9))) :=
    exec_ld dr (.plain hne)
  have hcell : (s.setResult dr (s.cell (s.pc + sext offset9))).reg dr = s.cell (s.pc + sext offset9) :=
    (s.reg_setResult dr dr _).trans (if_pos rfl)
  exact ⟨_, _, _, exec_lea dr offset9 s, exec_ldr_of_lea s dr _ hne, hld, hcell,
    condIs_of_writesResult (s.setResult_writesResult dr _), rfl, rfl, rfl⟩

end Sys2Proof.Machine
end

