-- ==== Sys2Proof/Proofs/System.lean ====
section
/-! SUPPORT. `RTI`, the reserved opcode, `OUT` and `HALT`: what their words decode to, the frame of a trap and its linkage, what each leaves where the console takes its bytes, and the obligations on them (R125 to R127, R129, R133). -/

namespace Sys2Proof.Machine

open Sys2Proof.Safety

/-! ### Their words (R63) -/

theorem decode_rti (low : BitVec 12) : decode (0x8#4 ++ low) = .rti := by
  rw [decode, layout_inert]
  rfl

theorem decode_reserved (low : BitVec 12) : decode (0xD#4 ++ low) = .reserved := by
  rw [decode, layout_inert]
  rfl

/-- The vector alone selects the routine; the four bits before it are ignored (R65, R127). -/
theorem decode_trap (x : BitVec 4) (v : BitVec 8) : decode (0b1111#4 ++ x ++ v) = decodeTrap v := by
  obtain ⟨hop, hvect⟩ := layout_trap 0b1111#4 x v
  rw [decode, hop, hvect]
  rfl

/-! ### The frame of a trap (R127, R135) -/

theorem enterTrap_trapFrame (s : State) : TrapFrame s (enterTrap s) where
  link := (reg_enterTrap s 7).trans (if_pos rfl)
  regs r h7 _ := (reg_enterTrap s r).trans (if_neg h7)
  pc := enterTrap_pc s
  memory := cell_enterTrap s
  kbdThen := enterTrap_kbdThen s

/-- Console output stays inside the frame. -/
theorem trapFrame_written {s t : State} (h : TrapFrame s t) (bs : List Byte) : TrapFrame s (written t bs) :=
  ⟨h.link, h.regs, h.pc, h.memory, h.kbdThen⟩

/-- So does the running flag. -/
theorem trapFrame_run {s t : State} (h : TrapFrame s t) (b : Bool) : TrapFrame s { t with run := b } :=
  ⟨h.link, h.regs, h.pc, h.memory, h.kbdThen⟩

/-! ### What each of them does -/

theorem exec_rti (s : State) : exec .rti s = .next s := rfl

theorem exec_reserved (s : State) : exec .reserved s = .next s := rfl

theorem lowByte_eq_ofNat_mod (w : Word) : lowByte w = BitVec.ofNat 8 (w.toNat % 256) :=
  List.singleton_inj.1 (putsBytes_eq w)

/-- The byte is that of R0 before the linkage, and the linkage takes none of the console's answers. -/
theorem exec_trapOut {s : State} (h : ConTakes s 1) :
    exec .trapOut s = .next (written (enterTrap s) [BitVec.ofNat 8 ((s.reg 0).toNat % 256)]) := by
  have hcon : ConTakes (enterTrap s) 1 := h
  rw [exec, execTrapOut, conWrite_takes hcon, Res.out_done, reg_enterTrap_arg, lowByte_eq_ofNat_mod]

/-- `run` is cleared after the last byte is taken (R133). -/
theorem exec_trapHalt {s : State} (h : ConTakes s 5) :
    exec .trapHalt s = .next { written (enterTrap s) haltText with run := false } := by
  have hcon : ConTakes (enterTrap s) haltMessage.length := h
  rw [exec, execTrapHalt, conWriteAll_takes hcon, Res.out_done]
  rfl

/-! ### The obligations -/

/-- Settles O24: the two meanings answer the state they are given, and their opcodes alone decode to them. -/
theorem inertOpcodesComplete : Obligations.InertOpcodesComplete := by
  unfold Obligations.InertOpcodesComplete
  exact fun s => ⟨exec_rti s, exec_reserved s, fun low => ⟨decode_rti low, decode_reserved low⟩⟩

/-- Settles O26: after the linkage the byte taken is all that changes. -/
theorem outCompletes : Obligations.OutCompletes := by
  unfold Obligations.OutCompletes
  refine ⟨fun x => decode_trap x 0x21, fun s h => ⟨_, exec_trapOut h, ?_⟩⟩
  exact ⟨trapFrame_written (enterTrap_trapFrame s) _, reg_enterTrap_arg s, rfl, rfl, rfl, rfl, ⟨rfl, rfl, rfl⟩⟩

/-- Settles O30: after the linkage the five bytes taken and the cleared `run` are all that changes. -/
theorem haltCompletes : Obligations.HaltCompletes := by
  unfold Obligations.HaltCompletes
  refine ⟨fun x => decode_trap x 0x25, fun s h => ⟨_, exec_trapHalt h, ?_⟩⟩
  exact ⟨trapFrame_run (trapFrame_written (enterTrap_trapFrame s) _) false, reg_enterTrap_arg s,
    rfl, rfl, rfl, rfl, rfl, rfl, rfl⟩

end Sys2Proof.Machine
end

