-- ==== Sys2Proof/Proofs/ImageLoad.lean ====
section
/-! SUPPORT. The image load as a read: the words its bytes stand for, what every address holds after it, and the frame of a boot (R172 to R174), and the obligation on it. -/

namespace Sys2Proof.Machine

open Sys2Proof.Safety

/-! ### The bytes of an image (R172, R173) -/

/-- The pair of bytes that stands for a word, read with its first byte high. -/
theorem byteHigh_append_byteLow (w : Word) :
    (BitVec.ofNat 8 (w.toNat / 256) ++ BitVec.ofNat 8 (w.toNat % 256) : Word) = w := by
  apply BitVec.eq_of_toNat_eq
  have hlow : w.toNat % 256 < 2 ^ 8 := Nat.mod_lt _ (by decide)
  rw [BitVec.toNat_append, BitVec.toNat_ofNat, BitVec.toNat_ofNat, Nat.mod_eq_of_lt hlow,
    ← Nat.shiftLeft_add_eq_or_of_lt hlow, Nat.shiftLeft_eq]
  omega

/-- The loader reads back the words an image was written from. -/
@[simp] theorem imageWords_flatMap_wordBytes (ws : List Word) : imageWords (ws.flatMap wordBytes) = ws := by
  induction ws with
  | nil => rfl
  | cons w ws ih =>
    rw [List.flatMap_cons, wordBytes, List.cons_append, List.cons_append, List.nil_append, imageWords,
      byteHigh_append_byteLow, ih]

/-! ### The stores of a load (R174) -/

/-- What an address of the address space holds after a load: its word of the payload, if it has one. The
load stops at 0xFFFF, so the words it leaves out have no such address. -/
theorem read_loadWords (ws : List Word) (a : Nat) (m : Memory) {b : Nat} (hb : b ≤ 0xFFFF) :
    (loadWords a ws m).read b = if a ≤ b then ws.getD (b - a) (m.read b) else m.read b := by
  induction ws generalizing a m with
  | nil => simp [loadWords]
  | cons w ws ih =>
    rw [loadWords]
    split
    next hend => rw [if_neg (hb.trans_lt hend).not_ge]
    next =>
      rw [ih, Memory.read_write]
      obtain hlt | rfl | hgt := lt_trichotomy b a
      · rw [if_neg (by omega), if_neg hlt.ne, if_neg hlt.not_ge]
      · simp
      · rw [if_pos (Nat.succ_le_of_lt hgt), if_neg hgt.ne', if_pos hgt.le,
          show b - a = b - (a + 1) + 1 by omega, List.getD_cons_succ]

/-! ### The boot (R171, R174) -/

/-- A boot from the image of an origin and a payload is the reset state with the payload stored: no other
field is written. -/
theorem boot_flatMap_wordBytes (origin : Word) (payload : List Word) :
    boot (some ((origin :: payload).flatMap wordBytes)) =
      .ok { State.reset with mem := loadWords origin.toNat payload State.reset.mem } := by
  rw [boot, loadImage, Option.map_some, imageWords_flatMap_wordBytes]

/-- Settles O56: the boot only stores the payload, over a memory that reads as zero everywhere. -/
theorem imageLoad : Obligations.ImageLoad := by
  unfold Obligations.ImageLoad
  intro origin payload
  refine ⟨_, boot_flatMap_wordBytes origin payload, fun a => ?_, rfl, rfl⟩
  exact read_loadWords payload origin.toNat State.reset.mem (Nat.le_of_lt_succ a.isLt)

end Sys2Proof.Machine
end

