-- ==== Sys2Proof/Proofs/Encoding.lean ====
section
/-! SUPPORT. The decoder undoes the encoder, answers well-formed instructions only, and does not see the bits no field names (R63, R65, R66), and the obligations on that. -/

namespace Sys2Proof.Machine

/-! ### The round trip -/

/-- An encoded word is the layout of its instruction with canonical values for the ignored bits, so the
decoding rule of that layout answers the instruction. Only the invalid `TRAP` needs its well-formedness: with
a routine's vector it would share that routine's word. -/
theorem decode_encode {i : Instr} (h : i.wellFormed = true) : decode (encode i) = i := by
  cases i with
  | br mask offset9 => exact decode_br mask offset9
  | addReg dr sr1 sr2 => exact decode_addReg dr sr1 sr2 0b00
  | addImm dr sr1 imm5 => exact decode_addImm dr sr1 imm5
  | ld dr offset9 => exact decode_ld dr offset9
  | st sr offset9 => exact decode_st sr offset9
  | jsr offset11 => exact decode_jsr offset11
  | jsrr baseR => exact decode_jsrr baseR 0b00 0b000000
  | andReg dr sr1 sr2 => exact decode_andReg dr sr1 sr2 0b00
  | andImm dr sr1 imm5 => exact decode_andImm dr sr1 imm5
  | ldr dr baseR offset6 => exact decode_ldr dr baseR offset6
  | str sr baseR offset6 => exact decode_str sr baseR offset6
  | rti => exact decode_rti 0
  | not dr sr1 => exact decode_not dr sr1 0b111111
  | ldi dr offset9 => exact decode_ldi dr offset9
  | sti sr offset9 => exact decode_sti sr offset9
  | jmp baseR => exact decode_jmp baseR 0b000 0b000000
  | reserved => exact decode_reserved 0
  | lea dr offset9 => exact decode_lea dr offset9
  | trapGetc => exact decode_trap 0 0x20
  | trapOut => exact decode_trap 0 0x21
  | trapPuts => exact decode_trap 0 0x22
  | trapIn => exact decode_trap 0 0x23
  | trapPutsp => exact decode_trap 0 0x24
  | trapHalt => exact decode_trap 0 0x25
  | trapOther v =>
    have hv : isRoutineVector v = false := by simpa [Instr.wellFormed] using h
    exact (decode_trap 0 v).trans (decodeTrap_other hv)

/-- Settles O54: the round trip, layout by layout. -/
theorem decodeEncodeRoundTrip : Obligations.DecodeEncodeRoundTrip := by
  unfold Obligations.DecodeEncodeRoundTrip
  exact fun i h => decode_encode h

/-- Settles O53: each of the ten words is the encoding of its instruction. -/
theorem wordsDecode : Obligations.WordsDecode := by
  unfold Obligations.WordsDecode
  exact ⟨decode_encode (i := .br 0b111 9) rfl, decode_encode (i := .addImm 1 1 7) rfl,
    decode_encode (i := .andReg 1 1 2) rfl, decode_encode (i := .not 0 2) rfl,
    decode_encode (i := .jsr 2) rfl, decode_encode (i := .jsrr 2) rfl,
    decode_encode (i := .ldr 1 2 0b111111) rfl, decode_encode (i := .st 3 4) rfl,
    decode_encode (i := .trapHalt) rfl, decode_encode (i := .trapOther 0x30) rfl⟩

/-! ### Every word -/

/-- Outside opcode 0xF well-formedness asks nothing; there the vector is checked by the decoder (R65). -/
theorem decode_wellFormed (w : Word) : (decode w).wellFormed = true := by
  unfold decode
  split
  case h_2 | h_5 | h_6 => split <;> rfl
  case h_16 => exact decodeTrap_wellFormed _
  all_goals rfl

/-- The three bits of a selector and the selector stand for each other. -/
@[simp] theorem regBits_toFin (r : BitVec 3) : regBits r.toFin = r := by
  rw [regBits, BitVec.val_toFin, BitVec.ofNat_toNat, BitVec.setWidth_eq]

/-- Settles O55: the decoding rules hold for every value of the ignored bits. -/
theorem ignoredBitsDoNotMatter : Obligations.IgnoredBitsDoNotMatter := by
  unfold Obligations.IgnoredBitsDoNotMatter
  refine ⟨decode_wellFormed, fun dr sr1 sr2 x => ⟨?_, ?_⟩, fun dr sr1 x => ?_, fun x base y => ?_,
    fun x base y => ?_, fun x v => ?_, fun x => ⟨decode_rti x, decode_reserved x⟩⟩
  · simpa only [regBits_toFin] using decode_addReg dr.toFin sr1.toFin sr2.toFin x
  · simpa only [regBits_toFin] using decode_andReg dr.toFin sr1.toFin sr2.toFin x
  · simpa only [regBits_toFin] using decode_not dr.toFin sr1.toFin x
  · simpa only [regBits_toFin] using decode_jmp base.toFin x y
  · simpa only [regBits_toFin] using decode_jsrr base.toFin x y
  · rw [decode_trap, decode_trap]

/-! ### The words of the invalid `TRAP` (R66) -/

theorem isRoutineVector_eq_false_iff (v : BitVec 8) : isRoutineVector v = false ↔ v < 0x20 ∨ 0x25 < v := by
  rw [isRoutineVector, decide_eq_false_iff_not, not_and_or, BitVec.not_le, BitVec.not_le]
  rfl

/-- The vector carried by a `TRAP` decoded as invalid is the one in the word. -/
theorem decodeTrap_eq_trapOther_iff (v x : BitVec 8) :
    decodeTrap v = .trapOther x ↔ v = x ∧ isRoutineVector v = false := by
  constructor
  · intro h
    have hwf := decodeTrap_wellFormed v
    have hv : v = x := by
      unfold decodeTrap at h
      split_ifs at h
      exact Instr.trapOther.inj h
    rw [h] at hwf
    exact ⟨hv, by simpa [Instr.wellFormed, hv] using hwf⟩
  · rintro ⟨rfl, h⟩
    exact decodeTrap_other h

/-- A word decodes to an invalid `TRAP` just where its opcode is 0xF and its vector selects no routine,
whatever its bits 11 to 8. -/
theorem decode_eq_trapOther_iff (w : Word) :
    (∃ v, decode w = .trapOther v) ↔
      w.toNat / 4096 = 15 ∧ (w.toNat % 256 < 0x20 ∨ 0x25 < w.toNat % 256) := by
  have hop : (w.extractLsb' 12 4).toNat = w.toNat / 4096 := by
    rw [field_toNat]
    have := w.isLt
    omega
  have hvect : (w.extractLsb' 0 8).toNat = w.toNat % 256 := by
    rw [field_toNat, pow_zero, Nat.div_one]; rfl
  by_cases h15 : w.toNat / 4096 = 15
  · have hdec : decode w = decodeTrap (w.extractLsb' 0 8) := by rw [decode, hop, h15]; rfl
    simp only [hdec, decodeTrap_eq_trapOther_iff, exists_eq_left', isRoutineVector_eq_false_iff,
      BitVec.lt_def, hvect, h15, true_and]
    rfl
  · refine iff_of_false ?_ fun h => h15 h.1
    rintro ⟨v, hv⟩
    have hlt := w.isLt
    unfold decode at hv
    rw [hop] at hv
    split at hv
    case h_2 | h_5 | h_6 => split at hv <;> cases hv
    case h_16 => simp only [imp_false] at *; omega
    all_goals cases hv

end Sys2Proof.Machine
end

