-- ==== Sys2Proof/Proofs/Effects.lean ====
section
/-! SUPPORT. What `Effect` changes, piece of state by piece of state, so of every instruction and every resumed routine at once, and the obligations on who writes what (R22, R27, R30, R48, R66, R159). -/

namespace Sys2Proof.Machine

open Sys2Proof.Safety

/-! ### How the classes of instructions lie to each other -/

/-- The destination that `cond` follows is a register the instruction writes (R22, R27). -/
theorem writesReg_of_setsCondFrom {i : Instr} {dr : Reg} (h : setsCondFrom i = some dr) : writesReg i dr = true := by
  cases i with
  | addReg _ _ _ | addImm _ _ _ | andReg _ _ _ | andImm _ _ _ | not _ _ | ld _ _ | ldi _ _ | ldr _ _ _ | lea _ _
  | trapGetc | trapIn =>
    obtain rfl := Option.some.inj h
    simp [writesReg]
  | _ => cases h

theorem writesPc_eq_false_of_isTrap {i : Instr} (h : isTrap i = true) : writesPc i = false := by
  cases i with
  | br _ _ | jmp _ | jsr _ | jsrr _ => cases h
  | _ => rfl

theorem storesWord_eq_false_of_isTrap {i : Instr} (h : isTrap i = true) : storesWord i = false := by
  cases i with
  | st _ _ | sti _ _ | str _ _ _ => cases h
  | _ => rfl

/-- Only the two routines that read a character set `cond` (R27). -/
theorem setsCondFrom_eq_none_of_isTrap {i : Instr} (h : isTrap i = true) (hg : i ≠ .trapGetc) (hin : i ≠ .trapIn) :
    setsCondFrom i = none := by
  cases i with
  | trapGetc => exact absurd rfl hg
  | trapIn => exact absurd rfl hin
  | trapOut | trapPuts | trapPutsp | trapHalt | trapOther _ => rfl
  | _ => cases h

/-- Only the two scans read memory (R48). -/
theorem readsMemory_eq_false_of_isTrap {i : Instr} (h : isTrap i = true) (hp : i ≠ .trapPuts)
    (hpp : i ≠ .trapPutsp) : readsMemory i = false := by
  cases i with
  | trapPuts => exact absurd rfl hp
  | trapPutsp => exact absurd rfl hpp
  | trapGetc | trapIn | trapOut | trapHalt | trapOther _ => rfl
  | _ => cases h

/-- A trap writes R7, and R0 as well only in the two routines that read a character (R127, R135). -/
theorem writesReg_trap {i : Instr} (h : isTrap i = true) (r : Reg) :
    writesReg i r = (r == 7 || r == 0 && (setsCondFrom i).isSome) := by
  cases i with
  | trapGetc | trapIn | trapOut | trapPuts | trapPutsp | trapHalt | trapOther _ => simp [writesReg, setsCondFrom]
  | _ => cases h

/-! ### Registers -/

/-- A register is as it was, or is the result's, or the linkage of a call. -/
theorem Effect.reg_cases {i : Instr} {s t : State} (h : Effect i s t) (r : Reg) :
    t.reg r = s.reg r ∨ setsCondFrom i = some r ∨ (r = 7 ∧ writesPc i = true ∧ writesReg i r = true) := by
  cases h with
  | @result u dr v hd hb =>
    by_cases hr : r = dr
    · exact .inr (.inl (hr ▸ hd))
    · exact .inl ((u.reg_setResult dr r v).trans ((if_neg hr).trans (hb.quiet.reg r)))
  | calls p hi h7 =>
    by_cases hr : r = 7
    · exact .inr (.inr ⟨hr, hi, by simp [h7, hr]⟩)
    · exact .inl ((s.reg_setReg 7 r s.pc).trans (if_neg hr))
  | goes p hi => exact .inl (s.reg_setPc p r)
  | badVector v hi => exact .inl (s.reg_raise _ r)
  | stores a v _ hb => exact .inl ((reg_memWrite _ a v r).trans (hb.quiet.reg r))
  | plain _ hb | halts _ hb | fails hb | held hb => exact .inl (hb.quiet.reg r)

/-- A register outside the destinations is as it was. -/
theorem Effect.reg_eq {i : Instr} {s t : State} (h : Effect i s t) {r : Reg} (hr : writesReg i r = false) :
    t.reg r = s.reg r := by
  obtain heq | hset | ⟨-, -, hw⟩ := h.reg_cases r
  · exact heq
  · rw [writesReg_of_setsCondFrom hset] at hr
    cases hr
  · rw [hw] at hr
    cases hr

/-- A trap routine keeps the linkage its entry wrote (R135). -/
theorem Effect.reg_link_of_trap {i : Instr} {s t : State} (ht : isTrap i = true) (h : Effect i s t) :
    t.reg 7 = s.reg 7 := by
  obtain heq | hset | ⟨-, hp, -⟩ := h.reg_cases 7
  · exact heq
  · have h7 : setsCondFrom i ≠ some 7 := by
      cases i with
      | trapGetc | trapIn | trapOut | trapPuts | trapPutsp | trapHalt | trapOther _ => simp [setsCondFrom]
      | _ => cases ht
    exact absurd hset h7
  · rw [writesPc_eq_false_of_isTrap ht] at hp
    cases hp

/-- The entry writes R7 alone, and only a trap has one. -/
theorem reg_entry {i : Instr} {r : Reg} (hr : writesReg i r = false) (s : State) : (entry i s).reg r = s.reg r := by
  unfold entry
  split
  next ht =>
    have h7 : r ≠ 7 := by
      rintro rfl
      rw [writesReg_trap ht] at hr
      cases hr
    exact (reg_enterTrap s r).trans (if_neg h7)
  next => rfl

theorem exec_reg {i : Instr} {s t : State} {r : Reg} (h : exec i s = .next t) (hr : writesReg i r = false) :
    t.reg r = s.reg r :=
  ((exec_effect h).reg_eq hr).trans (reg_entry hr s)

/-- After any trap, however it ends, R7 holds the linkage (R127). -/
theorem exec_trap_link {i : Instr} {s t : State} (hi : isTrap i = true) (h : exec i s = .next t) :
    t.reg 7 = s.pc := by
  have hlink : (entry i s).reg 7 = s.pc := by
    rw [entry, if_pos hi]
    exact (reg_enterTrap s 7).trans (if_pos rfl)
  exact ((exec_effect h).reg_link_of_trap hi).trans hlink

/-! ### Memory -/

/-- Where nothing is stored the keyboard's two cells alone can change, and only in a read of memory. -/
theorem Effect.cell_eq {i : Instr} {s t : State} (h : Effect i s t) (hs : storesWord i = false) {b : Word}
    (hb : (b ≠ 0xFE00 ∧ b ≠ 0xFE02) ∨ readsMemory i = false) : t.cell b = s.cell b := by
  have before {u : State} (hu : Before i s u) : u.cell b = s.cell b := by
    obtain ⟨h0, h2⟩ | hr := hb
    · exact hu.quiet.cells b h0 h2
    · rw [State.cell, hu.mem hr, State.cell]
  cases h with
  | result v _ hu => exact (State.cell_setResult _ _ v b).trans (before hu)
  | plain _ hu | fails hu | held hu => exact before hu
  | halts _ hu =>
    have hcell := before hu
    exact hcell
  | goes p => exact s.cell_setPc p b
  | calls p => exact (State.cell_setPc _ p b).trans (s.cell_setReg 7 s.pc b)
  | stores _ _ hw => rw [hw] at hs; cases hs
  | badVector v => exact s.cell_raise _ b

@[simp] theorem cell_entry (i : Instr) (s : State) (b : Word) : (entry i s).cell b = s.cell b := by
  unfold entry
  split
  next => exact cell_enterTrap s b
  next => rfl

theorem exec_cell {i : Instr} {s t : State} {b : Word} (h : exec i s = .next t) (hs : storesWord i = false)
    (hb : (b ≠ 0xFE00 ∧ b ≠ 0xFE02) ∨ readsMemory i = false) : t.cell b = s.cell b :=
  ((exec_effect h).cell_eq hs hb).trans (cell_entry i s b)

/-- Every effect keeps the canonical form of memory (log 1). -/
theorem Effect.mem_wf {i : Instr} {s t : State} (h : Effect i s t) (hm : s.mem.wf) : t.mem.wf := by
  cases h with
  | result v _ hb | plain _ hb | halts _ hb | fails hb | held hb => exact hb.quiet.wf hm
  | goes p | calls p | badVector v => exact hm
  | stores a v _ hb => exact memWrite_wf (hb.quiet.wf hm) a v

/-! ### `cond`, `run` and the fault status -/

theorem Effect.cond_eq {i : Instr} {s t : State} (h : Effect i s t) (hc : setsCondFrom i = none) :
    t.cond = s.cond := by
  cases h with
  | result v hd => rw [hc] at hd; cases hd
  | goes p | calls p | badVector v => rfl
  | plain _ hb | stores _ _ _ hb | halts _ hb | fails hb | held hb => exact hb.quiet.cond

@[simp] theorem entry_cond (i : Instr) (s : State) : (entry i s).cond = s.cond := by
  unfold entry
  split <;> rfl

theorem Effect.run_eq {i : Instr} {s t : State} (h : Effect i s t) (hi : i ≠ .trapHalt) : t.run = s.run := by
  cases h with
  | halts hh => exact absurd hh hi
  | goes p | calls p | badVector v => rfl
  | result _ _ hb | plain _ hb | stores _ _ _ hb | fails hb | held hb => exact hb.quiet.run

@[simp] theorem entry_run (i : Instr) (s : State) : (entry i s).run = s.run := by
  unfold entry
  split <;> rfl

/-- The fault status is as it was, or the host's failure was raised, or the fault of an invalid vector (R147). -/
theorem Effect.fault_cases {i : Instr} {s t : State} (h : Effect i s t) :
    t.fault = s.fault ∨ t.fault = some .hostIOError ∨
      ∃ v, i = .trapOther v ∧ t.fault = some (.invalidTrapvect v) := by
  cases h with
  | result _ _ _ hf | plain _ _ hf | stores _ _ _ _ hf | halts _ _ hf | held _ hf => exact .inl hf
  | goes p | calls p => exact .inl rfl
  | badVector v hi => exact .inr (.inr ⟨v, hi, rfl⟩)
  | fails _ hf => exact .inr (.inl hf)

@[simp] theorem entry_fault (i : Instr) (s : State) : (entry i s).fault = s.fault := by
  unfold entry
  split <;> rfl

/-- From a state without fault, `InvalidTrapvect` is raised by an invalid vector and by nothing else. -/
theorem exec_invalidTrapvect_iff {i : Instr} {s t : State} (hs : s.fault = none) (h : exec i s = .next t) :
    (∃ v, t.fault = some (.invalidTrapvect v)) ↔ ∃ v, i = .trapOther v := by
  constructor
  · rintro ⟨v, hv⟩
    obtain hf | hf | ⟨x, hi, -⟩ := (exec_effect h).fault_cases
    · rw [entry_fault, hs, hv] at hf
      cases hf
    · rw [hv] at hf
      cases hf
    · exact ⟨x, hi⟩
  · rintro ⟨v, rfl⟩
    exact ⟨v, next_inj h ▸ State.raise_fault _ _⟩

/-! ### The streams -/

/-- The console has only grown, the host's answers have only been taken (R10, R34). -/
structure Advances (s t : State) : Prop where
  console : s.console <+: t.console
  kbd : t.kbd <:+ s.kbd
  conPort : t.conPort <:+ s.conPort
  kbdThen : t.kbdThen = s.kbdThen

theorem Advances.refl (s : State) : Advances s s :=
  ⟨List.prefix_rfl, List.suffix_rfl, List.suffix_rfl, rfl⟩

theorem Advances.trans {s u t : State} (h : Advances s u) (g : Advances u t) : Advances s t :=
  ⟨h.console.trans g.console, g.kbd.trans h.kbd, g.conPort.trans h.conPort, g.kbdThen.trans h.kbdThen⟩

theorem Quiet.advances {s t : State} (h : Quiet s t) : Advances s t := ⟨h.console, h.kbd, h.conPort, h.kbdThen⟩

theorem Effect.advances {i : Instr} {s t : State} (h : Effect i s t) : Advances s t := by
  cases h with
  | goes p | calls p | badVector v => exact ⟨List.prefix_rfl, List.suffix_rfl, List.suffix_rfl, rfl⟩
  | result _ _ hb | plain _ hb | stores _ _ _ hb | halts _ hb | fails hb | held hb =>
    obtain ⟨hcon, hkbd, hport, hthen⟩ := hb.quiet.advances
    exact ⟨hcon, hkbd, hport, hthen⟩

theorem Effect.console_eq {i : Instr} {s t : State} (h : Effect i s t) (hi : writesConsole i = false) :
    t.console = s.console ∧ t.conPort = s.conPort := by
  cases h with
  | goes p | calls p | badVector v => exact ⟨rfl, rfl⟩
  | result _ _ hb | plain _ hb | stores _ _ _ hb | halts _ hb | fails hb | held hb => exact hb.con hi

theorem entry_console (i : Instr) (s : State) :
    (entry i s).console = s.console ∧ (entry i s).conPort = s.conPort := by
  unfold entry
  split <;> exact ⟨rfl, rfl⟩

/-! ### The obligations -/

/-- Settles O43: no effect writes a register outside the destinations, and the linkage is one of them. -/
theorem registerWriters : Obligations.RegisterWriters := by
  unfold Obligations.RegisterWriters
  exact fun i s t r h hr => exec_reg h hr

/-- Settles O44: the only effect on other cells is a store. -/
theorem memoryWriters : Obligations.MemoryWriters := by
  unfold Obligations.MemoryWriters
  exact fun i s t b h hs hb => exec_cell h hs hb

/-- Settles O46: what comes before the last effect writes to the console in the five routines only. -/
theorem consoleWriters : Obligations.ConsoleWriters := by
  unfold Obligations.ConsoleWriters
  intro i s t h hi
  obtain ⟨hcon, hport⟩ := (exec_effect h).console_eq hi
  obtain ⟨hcon', hport'⟩ := entry_console i s
  exact ⟨hcon.trans hcon', hport.trans hport'⟩

/-- Settles O47: no effect but `HALT`'s writes `run`; a step that is no stutter begins with `run` set. -/
theorem runClearedOnlyByHalt : Obligations.RunClearedOnlyByHalt := by
  unfold Obligations.RunClearedOnlyByHalt
  refine ⟨fun i s t h hi => ((exec_effect h).run_eq hi).trans (entry_run i s), fun s t h ht => ?_⟩
  obtain ⟨-, rfl⟩ | ⟨hs, -⟩ | ⟨hs, -⟩ | ⟨hs, -⟩ := step_cases h
  · exact ht
  all_goals exact ((not_stopped_iff s).1 hs).1

/-- Settles O48: the fault is the invalid `TRAP`'s alone, and the words of that are known. -/
theorem illegalEncodings : Obligations.IllegalEncodings := by
  unfold Obligations.IllegalEncodings
  exact fun w s t hs h => (exec_invalidTrapvect_iff hs h).trans (decode_eq_trapOther_iff w)

/-- Settles O32: a trap's frame is that of every instruction, with the linkage its entry writes. -/
theorem trapRoutinesLeaveAlone : Obligations.TrapRoutinesLeaveAlone := by
  unfold Obligations.TrapRoutinesLeaveAlone
  intro i s t hi h
  have hstore := storesWord_eq_false_of_isTrap hi
  refine ⟨exec_trap_link hi h, fun r h7 h0 => exec_reg h ?_, exec_pc (writesPc_eq_false_of_isTrap hi) h,
    fun hg hin => exec_reg h ?_,
    fun hp hpp b => exec_cell h hstore (.inr (readsMemory_eq_false_of_isTrap hi hp hpp)),
    fun b h0 h2 => exec_cell h hstore (.inl ⟨h0, h2⟩)⟩
  · simp [writesReg_trap hi, h7, h0]
  · simp [writesReg_trap hi, setsCondFrom_eq_none_of_isTrap hi hg hin]

end Sys2Proof.Machine
end

