-- ==== Sys2Proof/Proofs/MemRead.lean ====
section
/-! SUPPORT. The reads of memory by address and by what the keyboard answers (R44, R46, R51), and the obligations on them. -/

namespace Sys2Proof.Machine

open Sys2Proof.Safety

/-! ### The cells a poll leaves (R44) -/

/-- A poll that finds a key leaves the ready word and the character, whatever the two cells held. -/
theorem cell_poll_key (s : State) (c : Byte) (k : List KbdAnswer) (b : Word) :
    (memWrite 0xFE02 (c.setWidth 16) (memWrite 0xFE00 0x8000 { s with kbd := k })).cell b =
      if b = 0xFE00 then 0x8000 else if b = 0xFE02 then c.setWidth 16 else s.cell b := by
  rw [cell_memWrite, cell_memWrite]
  by_cases h : b = 0xFE00
  · subst h; rfl
  · rw [if_neg h, if_neg h]; rfl

theorem cell_poll_noKey (s : State) (k : List KbdAnswer) (b : Word) :
    (memWrite 0xFE00 0x0000 { s with kbd := k }).cell b = if b = 0xFE00 then 0x0000 else s.cell b :=
  cell_memWrite _ _ _ b

/-! ### A read after stores (R51) -/

/-- The cell after a list of stores: the last of them at that address decides. -/
theorem cell_foldl_memWrite (s : State) (stores : List (Word × Word)) (a : Word) :
    (stores.foldl (fun u st => memWrite st.1 st.2 u) s).cell a =
      ((stores.reverse.find? fun st => st.1 == a).map Prod.snd).getD (s.cell a) := by
  induction stores using List.reverseRecOn with
  | nil => rfl
  | append_singleton stores st ih =>
    rw [List.foldl_append, List.foldl_cons, List.foldl_nil, cell_memWrite, List.reverse_append,
      List.reverse_singleton, List.singleton_append, ih]
    by_cases h : a = st.1
    · rw [if_pos h, List.find?_cons_of_pos (by simp [h])]; rfl
    · rw [if_neg h, List.find?_cons_of_neg (by simp [Ne.symm h])]

/-! ### The obligations -/

/-- Settles O4: `MemRead` is the relation of R44, whose three cases are the three of the rule. -/
theorem memReadRule : Obligations.MemReadRule := by
  unfold Obligations.MemReadRule
  refine fun s a => ⟨fun h => memRead_of_readOf (.plain h), fun c k h hk => ?_, fun k h hk => ?_⟩
  · exact ⟨_, memRead_of_readOf (.key h hk), cell_poll_key s c k, rfl, fun _ => rfl, rfl, rfl,
      ⟨rfl, rfl, rfl⟩, rfl, rfl, rfl⟩
  · exact ⟨_, memRead_of_readOf (.noKey h hk), cell_poll_noKey s k, rfl, fun _ => rfl, rfl, rfl,
      ⟨rfl, rfl, rfl⟩, rfl, rfl, rfl⟩

/-- Settles O6: away from 0xFE00 the read gives the cell, and the last store decides what it holds. -/
theorem readSeesLatestStore : Obligations.ReadSeesLatestStore := by
  unfold Obligations.ReadSeesLatestStore
  intro s stores a ha
  rw [← cell_foldl_memWrite]
  exact ⟨_, memRead_of_readOf (.plain ha)⟩

/-- Settles O7: the second poll finds the second key and writes it over the first. -/
theorem kbsrReadIsDestructive : Obligations.KbsrReadIsDestructive := by
  unfold Obligations.KbsrReadIsDestructive
  intro s c d k h
  refine ⟨_, _, memRead_of_readOf (.key rfl (.inl h)), memRead_of_readOf (.key rfl (.inl rfl)), ?_, ?_, rfl⟩
  · exact (cell_poll_key s c _ 0xFE02).trans rfl
  · exact (cell_poll_key _ d k 0xFE02).trans rfl

/-- Settles O22: the two relations cover every read, and `MemRead` follows each. -/
theorem everyReadGivesOrFails : Obligations.EveryReadGivesOrFails := by
  unfold Obligations.EveryReadGivesOrFails
  intro s a
  obtain ⟨v, u, h⟩ | ⟨u, h⟩ := readOf_or_readFails s a
  · exact .inl ⟨v, u, h, memRead_of_readOf h⟩
  · exact .inr ⟨u, h, memRead_of_readFails h⟩

end Sys2Proof.Machine
end

