-- ==== Sys2Proof/Proofs/Cycle.lean ====
section
/-! SUPPORT. The step of a stopped and of a ready core, the fetch at 0xFE00 and the failing polls (R80, R81, R148, R152, R178), that every step answers a next state, and the obligations on the instruction cycle. -/

namespace Sys2Proof.Machine

open Sys2Proof.Safety

/-! ### The step of a stopped core, and of a ready one whose fetch fails -/

/-- A stopped core's step is a stutter (R178; log 6). -/
theorem step_of_stopped {s : State} (h : s.stopped = true) : step s = .next s := by
  rw [step, cycle, if_pos h]

/-- The poll of a fetch comes before the increment (R152). -/
theorem step_of_fetchFails {s u : State} (hs : Ready s) (h : ReadFails s s.pc u) : step s = .next u := by
  obtain ⟨hrun, hfault, hhold⟩ := hs
  simp only [step, cycle, (not_stopped_iff s).2 ⟨hrun, hfault⟩, hhold, Bool.false_eq_true, if_false, fetch,
    memRead_of_readFails h, Res.bind_ended, Res.out_ended]

/-! ### The two words a fetch at 0xFE00 runs (R81) -/

theorem exec_decode_ready (s : State) : exec (decode 0x8000) s = .next s := exec_rti s

/-- The word 0 is a `BR` whose mask meets no condition. -/
theorem exec_decode_zero (s : State) : exec (decode 0x0000) s = .next s := by
  have hdec : decode 0x0000 = .br 0 0 := decode_br 0 0
  have hmask : branchTaken 0 s.cond = false := by cases s.cond <;> rfl
  rw [hdec, exec_br, hmask]
  rfl

/-! ### Every step answers a next state (log 7) -/

/-- A primitive that ends the step answers next, so the rest decides. -/
theorem Res.out_next {α : Type} (r : Res α) {k : α → State → Out} (hk : ∀ a u, ∃ t, k a u = .next t) :
    ∃ t, r.out k = .next t := by
  cases r with
  | done a u => exact hk a u
  | ended u => exact ⟨u, rfl⟩

theorem inFromRead_next (s : State) : ∃ t, inFromRead s = .next t :=
  Res.out_next _ fun _ _ => Res.out_next _ fun _ _ => ⟨_, rfl⟩

theorem resume_next (w : Hold) (s : State) : ∃ t, resume w s = .next t := by
  cases w with
  | getc | puts _ | putsp _ => exact Res.out_next _ fun _ _ => ⟨_, rfl⟩
  | inChar => exact inFromRead_next s

theorem exec_next (i : Instr) (s : State) : ∃ t, exec i s = .next t := by
  cases i with
  | ld _ _ | ldi _ _ | ldr _ _ _ | sti _ _ | trapGetc | trapOut | trapPuts | trapPutsp | trapHalt =>
    exact Res.out_next _ fun _ _ => ⟨_, rfl⟩
  | trapIn => exact Res.out_next _ fun _ u => inFromRead_next u
  | _ => exact ⟨_, rfl⟩

theorem step_next (s : State) : ∃ t, step s = .next t := by
  unfold step cycle
  split
  next => exact ⟨s, rfl⟩
  next =>
    split
    next w _ => exact resume_next w s
    next => exact Res.out_next _ fun w u => exec_next (decode w) u

/-! ### The obligations -/

/-- Settles O52: every meaning ends in a next state whatever its primitives do. -/
theorem everyStepAnswersNextState : Obligations.EveryStepAnswersNextState := by
  unfold Obligations.EveryStepAnswersNextState
  exact ⟨step_next, exec_next⟩

/-- Settles O38: the fetch is the read of R44, and `exec` of the decoded word the rest. -/
theorem stepRunsDecodedInstruction : Obligations.StepRunsDecodedInstruction := by
  unfold Obligations.StepRunsDecodedInstruction
  exact fun s u w hs h => step_of_ready hs h

/-- Settles O50: either reason to stop makes the core a stopped one. -/
theorem stoppedCoreKeepsItsState : Obligations.StoppedCoreKeepsItsState := by
  unfold Obligations.StoppedCoreKeepsItsState
  exact fun s h => step_of_stopped ((stopped_iff s).2 h)

/-- Settles O51: the fetch is a plain read, and the cell it reads holds the word stored. -/
theorem nextFetchSeesStore : Obligations.NextFetchSeesStore := by
  unfold Obligations.NextFetchSeesStore
  intro s v hs hpc
  have hcell : (memWrite s.pc v s).cell s.pc = v := (cell_memWrite s s.pc v s.pc).trans (if_pos rfl)
  have hread : ReadOf (memWrite s.pc v s) s.pc ((memWrite s.pc v s).cell s.pc) (memWrite s.pc v s) := .plain hpc
  rw [hcell] at hread
  exact step_of_ready (s := memWrite s.pc v s) hs hread

/-- Settles O39: the word the poll gives is inert, so only the poll and the increment show. -/
theorem fetchAtKbsr : Obligations.FetchAtKbsr := by
  unfold Obligations.FetchAtKbsr
  intro s hs hpc
  have hnext : s.pc + 1 = 0xFE01 := by rw [hpc]; rfl
  refine ⟨fun c k hk => ?_, fun k hk => ?_⟩
  · have hstep := (step_of_ready hs (.key hpc hk)).trans (exec_decode_ready _)
    exact ⟨_, hstep, hnext, rfl, rfl, fun _ => rfl, ⟨rfl, rfl, rfl⟩, rfl, rfl, rfl, cell_poll_key s c k⟩
  · have hstep := (step_of_ready hs (.noKey hpc hk)).trans (exec_decode_zero _)
    exact ⟨_, hstep, hnext, rfl, rfl, fun _ => rfl, ⟨rfl, rfl, rfl⟩, rfl, rfl, rfl, cell_poll_noKey s k⟩

/-- Settles O36: a read that fails ends the step in the state it leaves, wherever in the instruction it stands. -/
theorem failedPollEndsTheStep : Obligations.FailedPollEndsTheStep := by
  unfold Obligations.FailedPollEndsTheStep
  refine fun s u => ⟨step_of_fetchFails, fun dr offset9 h => ⟨?_, ?_, ?_⟩, fun dr baseR offset6 h => ?_,
    fun w dr offset9 p hp h => ?_⟩
  · rw [exec, execLd, State.pcRel9, memRead_of_readFails h, Res.out_ended]
  · rw [exec, execLdi, State.pcRel9, memRead_of_readFails h, Res.bind_ended, Res.out_ended]
  · rw [exec, execSti, State.pcRel9, memRead_of_readFails h, Res.out_ended]
  · rw [exec, execLdr, State.baseOff, memRead_of_readFails h, Res.out_ended]
  · rw [exec, execLdi, State.pcRel9, memRead_of_readOf hp, Res.bind_done, memRead_of_readFails h, Res.out_ended]

end Sys2Proof.Machine
end

