-- ==== Sys2Proof/Proofs/Invariant.lean ====
section
/-! SUPPORT. A step of a core that is not stopped as one effect of one instruction, fetched or held, and the obligations on every step: the streams, the fault status and the invariant of the machine (R31, R34, R147). -/

namespace Sys2Proof.Machine

open Sys2Proof.Safety

/-! ### What a step does, whether its instruction is fetched or held -/

/-- `u` is the state from which the effect of a step of `s` starts, `i` the instruction: the one fetched, `pc`
incremented and a trap entered, or the one held, the hold lifted. -/
structure Begun (s : State) (i : Instr) (u : State) : Prop where
  wellFormed : i.wellFormed = true
  run : u.run = s.run
  fault : u.fault = s.fault
  hold : u.hold = none
  advances : Advances s u
  wf : s.mem.wf → u.mem.wf
  link : (s.hold ≠ none → s.reg 7 = s.pc) → isTrap i = true → u.reg 7 = u.pc

theorem Hold.instr_wellFormed (w : Hold) : w.instr.wellFormed = true := by
  cases w <;> rfl

/-- A held routine starts from the state it is held in; its linkage is the invariant's. -/
theorem begun_held {s : State} {w : Hold} (h : s.hold = some w) : Begun s w.instr { s with hold := none } where
  wellFormed := w.instr_wellFormed
  run := rfl
  fault := rfl
  hold := rfl
  advances := (quiet_hold s none).advances
  wf := id
  link hl _ := hl (by simp [h])

@[simp] theorem entry_hold (i : Instr) (s : State) : (entry i s).hold = s.hold := by
  unfold entry
  split <;> rfl

@[simp] theorem entry_mem (i : Instr) (s : State) : (entry i s).mem = s.mem := by
  unfold entry
  split <;> rfl

theorem entry_advances (i : Instr) (s : State) : Advances s (entry i s) := by
  unfold entry
  split <;> exact ⟨List.prefix_rfl, List.suffix_rfl, List.suffix_rfl, rfl⟩

/-- The entry of a trap writes its linkage (R153). -/
theorem entry_link {i : Instr} (hi : isTrap i = true) (s : State) : (entry i s).reg 7 = (entry i s).pc := by
  rw [entry, if_pos hi]
  exact (reg_enterTrap s 7).trans (if_pos rfl)

/-- A fetched instruction starts from the state its fetch leaves. -/
theorem begun_fetched {s u : State} {w : Word} (hh : s.hold = none) (h : ReadOf s s.pc w u) :
    Begun s (decode w) (entry (decode w) (u.setPc (u.pc + 1))) where
  wellFormed := decode_wellFormed w
  run := (entry_run _ _).trans (readOf_quiet h).run
  fault := (entry_fault _ _).trans (readOf_control h).1
  hold := (entry_hold _ _).trans ((readOf_control h).2.1.trans hh)
  advances :=
    have hfetch : Advances s (u.setPc (u.pc + 1)) :=
      have hread := (readOf_quiet h).advances
      ⟨hread.console, hread.kbd, hread.conPort, hread.kbdThen⟩
    hfetch.trans (entry_advances _ _)
  wf hm := (entry_mem (decode w) (u.setPc (u.pc + 1))).symm ▸ (readOf_quiet h).wf hm
  link _ hi := entry_link hi _

/-- Every step is a stutter, a failed fetch, or the effect of an instruction begun. -/
theorem step_effect {s t : State} (h : step s = .next t) :
    (s.stopped = true ∧ t = s) ∨
    (s.stopped = false ∧ s.hold = none ∧ ReadFails s s.pc t) ∨
    (s.stopped = false ∧ ∃ i u, Begun s i u ∧ Effect i u t) := by
  obtain hstop | ⟨hs, w, hw, hr⟩ | hfail | ⟨hs, hh, w, u, hr, he⟩ := step_cases h
  · exact .inl hstop
  · exact .inr (.inr ⟨hs, _, _, begun_held hw, resume_effect hr⟩)
  · exact .inr (.inl hfail)
  · exact .inr (.inr ⟨hs, _, _, begun_fetched hh hr, exec_effect he⟩)

/-- Settles O45: the beginning of a step and its effect only advance the streams. -/
theorem streamsOnlyAdvance : Obligations.StreamsOnlyAdvance := by
  unfold Obligations.StreamsOnlyAdvance
  intro s t h
  have hadv : Advances s t := by
    obtain ⟨-, rfl⟩ | ⟨-, -, hf⟩ | ⟨-, i, u, hb, he⟩ := step_effect h
    · exact .refl t
    · exact (readFails_quiet hf).advances
    · exact hb.advances.trans he.advances
  exact ⟨hadv.console, hadv.kbd, hadv.conPort, hadv.kbdThen⟩

/-- Settles O49: a faulted core stutters, and a step begun without fault raises one of two faults. -/
theorem faultStatusIsFinal : Obligations.FaultStatusIsFinal := by
  unfold Obligations.FaultStatusIsFinal
  intro s t h
  obtain ⟨-, rfl⟩ | ⟨hs, -, hf⟩ | ⟨hs, i, u, hb, he⟩ := step_effect h
  · exact ⟨fun _ => rfl, fun hn => by simp [hn]⟩
  · refine ⟨fun hn => absurd ((not_stopped_iff s).1 hs).2 hn, fun _ => ?_⟩
    simp [(readFails_control hf).1]
  · refine ⟨fun hn => absurd ((not_stopped_iff s).1 hs).2 hn, fun hn => ?_⟩
    obtain hf | hf | ⟨v, -, hf⟩ := he.fault_cases
    · simp [hf, hb.fault, hn]
    · simp [hf]
    · simp [hf]

/-! ### The four kinds of state that meet the invariant -/

/-- A running core that holds no routine, failed by the host or not. -/
theorem inv_of_running {t : State} (hm : t.mem.wf) (hr : t.run = true) (hh : t.hold = none)
    (hf : t.fault = none ∨ t.fault = some .hostIOError) : Inv t where
  memory := hm
  held hn := absurd hh hn
  halted hn := by rw [hr] at hn; cases hn
  badVector v hv := by obtain hf | hf := hf <;> rw [hf] at hv <;> cases hv
  noBadOpcode := by obtain hf | hf := hf <;> simp [hf]

/-- A core held in a routine. -/
theorem inv_of_held {t : State} (hm : t.mem.wf) (hr : t.run = true) (hf : t.fault = none)
    (hl : t.reg 7 = t.pc) : Inv t where
  memory := hm
  held _ := ⟨hl, hr, hf⟩
  halted hn := by rw [hr] at hn; cases hn
  badVector v hv := by rw [hf] at hv; cases hv
  noBadOpcode := by simp [hf]

/-- A core that `HALT` has stopped. -/
theorem inv_of_halted {t : State} (hm : t.mem.wf) (hh : t.hold = none) (hf : t.fault = none)
    (hl : t.reg 7 = t.pc) (hc : haltText <:+ t.console) : Inv t where
  memory := hm
  held hn := absurd hh hn
  halted _ := ⟨hf, hl, hc⟩
  badVector v hv := by rw [hf] at hv; cases hv
  noBadOpcode := by simp [hf]

/-- A core stopped on a vector that selects no routine. -/
theorem inv_of_badVector {t : State} {v : BitVec 8} (hm : t.mem.wf) (hr : t.run = true) (hh : t.hold = none)
    (hf : t.fault = some (.invalidTrapvect v)) (hl : t.reg 7 = t.pc) (hv : v < 0x20 ∨ 0x25 < v) : Inv t where
  memory := hm
  held hn := absurd hh hn
  halted hn := by rw [hr] at hn; cases hn
  badVector x hx := by
    rw [hf] at hx
    obtain rfl := Fault.invalidTrapvect.inj (Option.some.inj hx)
    exact ⟨hl, hr, hv⟩
  noBadOpcode := by simp [hf]

/-! ### Every step keeps it -/

theorem Unheld.hold_eq_none {i : Instr} {s u : State} (h : Unheld i s u) (hs : s.hold = none) : u.hold = none := by
  obtain h | ⟨-, h⟩ := h
  · exact h.trans hs
  · exact h

/-- What an instruction makes of a running core without fault or hold, a trap's linkage written. -/
theorem Effect.inv {i : Instr} {s t : State} (h : Effect i s t) (hi : i.wellFormed = true) (hm : s.mem.wf)
    (hr : s.run = true) (hf : s.fault = none) (hh : s.hold = none)
    (hl : isTrap i = true → s.reg 7 = s.pc) : Inv t := by
  have hwf := h.mem_wf hm
  cases h with
  | result v _ hb hfu hhu =>
    exact inv_of_running hwf (hb.quiet.run.trans hr) (hhu.hold_eq_none hh) (.inl (hfu.trans hf))
  | plain _ hb hfu hhu =>
    exact inv_of_running hwf (hb.quiet.run.trans hr) (hhu.hold_eq_none hh) (.inl (hfu.trans hf))
  | goes p | calls p => exact inv_of_running hwf hr hh (.inl hf)
  | stores a v _ hb hfu hhu => exact inv_of_running hwf (hb.quiet.run.trans hr) (hhu.trans hh) (.inl (hfu.trans hf))
  | fails hb hfu hhu => exact inv_of_running hwf (hb.quiet.run.trans hr) (hhu.hold_eq_none hh) (.inr hfu)
  | halts hi hb hfu hhu hc =>
    have hlink := (hb.quiet.reg 7).trans ((hl (hi ▸ rfl)).trans hb.quiet.pc.symm)
    exact inv_of_halted hwf (hhu.trans hh) (hfu.trans hf) hlink ⟨_, hc.symm⟩
  | badVector v hv =>
    subst hv
    have hout : isRoutineVector v = false := by simpa [Instr.wellFormed] using hi
    exact inv_of_badVector hwf hr hh rfl (hl rfl) ((isRoutineVector_eq_false_iff v).1 hout)
  | held hb hfu ht =>
    exact inv_of_held hwf (hb.quiet.run.trans hr) (hfu.trans hf)
      ((hb.quiet.reg 7).trans ((hl ht).trans hb.quiet.pc.symm))

/-- Settles O60: a stutter keeps the state, a failed fetch leaves a running core failed by the host, and the
effect of an instruction begun leaves one of the four kinds of state. -/
theorem stepKeepsInvariant : Obligations.StepKeepsInvariant := by
  unfold Obligations.StepKeepsInvariant
  intro s t hinv h
  obtain ⟨-, rfl⟩ | ⟨hs, hh, hfail⟩ | ⟨hs, i, u, hb, he⟩ := step_effect h
  · exact hinv
  · obtain ⟨hfault, hhold, -⟩ := readFails_control hfail
    have hrun := ((not_stopped_iff s).1 hs).1
    exact inv_of_running ((readFails_quiet hfail).wf hinv.memory) ((readFails_quiet hfail).run.trans hrun)
      (hhold.trans hh) (.inr hfault)
  · obtain ⟨hrun, hfault⟩ := (not_stopped_iff s).1 hs
    exact he.inv hb.wellFormed (hb.wf hinv.memory) (hb.run.trans hrun) (hb.fault.trans hfault) hb.hold
      (hb.link fun hn => (hinv.held hn).1)

end Sys2Proof.Machine
end

