-- ==== Sys2Proof/Proofs/Boot.lean ====
section
/-! SUPPORT. The reset state, the corner cases of the image load, and the invariant after both (R35, R170, R174, R175), and the obligations on them. -/

namespace Sys2Proof.Machine

open Sys2Proof.Safety

/-! ### Reset -/

@[simp] theorem reset_reg (r : Reg) : State.reset.reg r = 0x0000 := by
  simp [State.reg, State.reset]

/-- Settles O3: registers and memory are zero throughout, the other fields are as written. -/
theorem resetState : Obligations.ResetState := by
  unfold Obligations.ResetState
  exact ⟨reset_reg, rfl, rfl, fun _ => rfl, rfl, rfl, rfl⟩

/-- Settles O58: the reset core runs, holds nothing and has no fault, over the empty memory. -/
theorem resetKeepsInvariant : Obligations.ResetKeepsInvariant := by
  unfold Obligations.ResetKeepsInvariant
  exact inv_of_running Memory.wf_nil rfl rfl (.inl rfl)

/-! ### The image load (R174, R175) -/

/-- A byte after the last pair is not read (R175). -/
theorem imageWords_append_byte (ws : List Word) (b : Byte) : imageWords (ws.flatMap wordBytes ++ [b]) = ws := by
  induction ws with
  | nil => rfl
  | cons w ws ih =>
    simp only [List.flatMap_cons, wordBytes, List.cons_append, List.nil_append, imageWords,
      byteHigh_append_byteLow, ih]

/-- The load stops before it would leave the address space, so every store of it keeps the canonical form. -/
theorem loadWords_wf {m : Memory} (hm : m.wf) (a : Nat) (ws : List Word) : (loadWords a ws m).wf := by
  induction ws generalizing a m with
  | nil => exact hm
  | cons w ws ih =>
    rw [loadWords]
    split
    next => exact hm
    next hend => exact ih (Memory.wf_write hm (Nat.lt_succ_of_le (not_lt.1 hend)) w) (a + 1)

/-- Everything a boot that succeeds can end in. -/
theorem boot_ok {file : Option (List Byte)} {t : State} (h : boot file = .ok t) :
    ∃ a ws, t = { State.reset with mem := loadWords a ws State.reset.mem } := by
  unfold boot loadImage at h
  split at h
  next origin payload _ => exact ⟨origin.toNat, payload, (Except.ok.inj h).symm⟩
  next => cases h

/-- Settles O57: no word of a short or missing file is an origin, and the loader's words are those of whole pairs. -/
theorem imageCornerCases : Obligations.ImageCornerCases := by
  unfold Obligations.ImageCornerCases
  refine ⟨rfl, rfl, fun _ => rfl, fun _ _ => rfl, fun words _ b => ?_⟩
  simp only [boot, loadImage, Option.map_some, imageWords_append_byte, imageWords_flatMap_wordBytes]

/-- Settles O59: a boot changes the reset state in its memory only, and keeps the canonical form there. -/
theorem bootKeepsInvariant : Obligations.BootKeepsInvariant := by
  unfold Obligations.BootKeepsInvariant
  intro file t h
  obtain ⟨a, ws, rfl⟩ := boot_ok h
  exact inv_of_running (loadWords_wf Memory.wf_nil a ws) rfl rfl (.inl rfl)

end Sys2Proof.Machine
end

