-- ==== Sys2Proof/Proofs/CondIndependence.lean ====
section
/-! SUPPORT. No instruction but `BR` reads `cond`: run with another `cond` before, it ends in a state that differs in `cond` at most (R27), and the obligation on that. -/

namespace Sys2Proof.Machine

open Sys2Proof.Safety

/-- Both outcomes are next states, and these differ in `cond` at most. -/
def AlikeButCond (o o' : Out) : Prop := ∃ u t, o = .next u ∧ o' = .next t ∧ u.withCond t.cond = t

theorem alike_next (s : State) (c : Cond) : AlikeButCond (.next (s.withCond c)) (.next s) := ⟨_, _, rfl, rfl, rfl⟩

/-- A result sets `cond` over whatever it was. -/
theorem alike_setResult (s : State) (c : Cond) (dr : Reg) (v : Word) :
    AlikeButCond (.next ((s.withCond c).setResult dr v)) (.next (s.setResult dr v)) := ⟨_, _, rfl, rfl, rfl⟩

/-- A primitive that does not read `cond` passes the difference on to the rest of the step. -/
theorem alike_out {α : Type} {r r' : Res α} {c : Cond} (hr : r' = r.withCond c) {k : α → State → Out}
    (hk : ∀ a u, AlikeButCond (k a (u.withCond c)) (k a u)) : AlikeButCond (r'.out k) (r.out k) := by
  subst hr
  cases r with
  | done a u => exact hk a u
  | ended u => exact alike_next u c

theorem alike_getcFromRead (s : State) (c : Cond) : AlikeButCond (getcFromRead (s.withCond c)) (getcFromRead s) :=
  alike_out (kbdRead_withCond _ s c) fun x u => alike_setResult u c _ (zext8 x)

theorem conWrite_withCond (b : Byte) (s : State) (c : Cond) :
    conWrite b (s.withCond c) = (conWrite b s).withCond c := by
  rw [conWrite_eq, conWrite_eq, conWriteAll_withCond]

theorem alike_inFromRead (s : State) (c : Cond) : AlikeButCond (inFromRead (s.withCond c)) (inFromRead s) :=
  alike_out (kbdRead_withCond _ s c) fun x u =>
    alike_out (conWrite_withCond x u c) fun _ v => alike_setResult v c _ (zext8 x)

theorem alike_scanString (w : Word → Hold) (emit : Word → List Byte) (a : Word) (s : State) (c : Cond) :
    AlikeButCond ((scanString w emit a (s.withCond c)).out fun _ u => .next u)
      ((scanString w emit a s).out fun _ u => .next u) :=
  alike_out (scanString_withCond w emit a s c) fun _ u => alike_next u c

/-- Every instruction but `BR`: its primitives do not read `cond`, nor does what it makes of them. -/
theorem exec_alike {i : Instr} (hi : ∀ m o, i ≠ .br m o) (s : State) (c : Cond) :
    AlikeButCond (exec i (s.withCond c)) (exec i s) := by
  cases i with
  | br m o => exact absurd rfl (hi m o)
  | addReg _ _ _ | addImm _ _ _ | andReg _ _ _ | andImm _ _ _ | not _ _ | lea _ _ =>
    exact alike_setResult s c _ _
  | jmp _ | jsr _ | jsrr _ | st _ _ | str _ _ _ | rti | reserved | trapOther _ => exact ⟨_, _, rfl, rfl, rfl⟩
  | ld dr _ | ldr dr _ _ => exact alike_out (memRead_withCond _ s c) fun v u => alike_setResult u c dr v
  | ldi dr o =>
    have hreads : (memRead ((s.withCond c).pcRel9 o) (s.withCond c)).bind memRead =
        ((memRead (s.pcRel9 o) s).bind memRead).withCond c := by
      rw [memRead_withCond]
      exact Res.bind_withCond _ _ c fun p u => memRead_withCond p u c
    exact alike_out hreads fun v u => alike_setResult u c dr v
  | sti sr _ => exact alike_out (memRead_withCond _ s c) fun p u => alike_next (memWrite p (u.reg sr) u) c
  | trapGetc => exact alike_getcFromRead (enterTrap s) c
  | trapOut => exact alike_out (conWrite_withCond _ (enterTrap s) c) fun _ u => alike_next u c
  | trapPuts | trapPutsp => exact alike_scanString _ _ _ (enterTrap s) c
  | trapIn => exact alike_out (conWriteAll_withCond inPrompt (enterTrap s) c) fun _ u => alike_inFromRead u c
  | trapHalt =>
    exact alike_out (conWriteAll_withCond haltMessage (enterTrap s) c) fun _ u => alike_next { u with run := false } c

/-- Settles O42: no effect outside the list writes `cond`, and no primitive reads it. -/
theorem condWritersAndReader : Obligations.CondWritersAndReader := by
  unfold Obligations.CondWritersAndReader
  refine fun i s t h => ⟨fun hi => ((exec_effect h).cond_eq hi).trans (entry_cond i s), fun hi c => ?_⟩
  obtain ⟨u, t', hu, ht', heq⟩ := exec_alike hi s c
  obtain rfl := next_inj (ht'.symm.trans h)
  exact ⟨u, hu, heq⟩

end Sys2Proof.Machine
end

