-- ==== Sys2Proof/Proofs/Traps.lean ====
section
/-! SUPPORT. `GETC`, `IN` and the invalid vector, where the host answers, fails or waits (R86, R128, R131, R134, R148), and the obligations on them. -/

namespace Sys2Proof.Machine

open Sys2Proof.Safety

/-! ### The console's answers, some bytes on -/

theorem conTakes_written {s : State} {bs : List Byte} {n : Nat} (h : ConTakes s (bs.length + n)) :
    ConTakes (written s bs) n := by
  intro x hx
  apply h x
  rw [written, List.take_drop] at hx
  exact List.mem_of_mem_drop hx

theorem conFailsAt_written {s : State} {bs : List Byte} {n : Nat} (h : ConFailsAt s (bs.length + n)) :
    ConFailsAt (written s bs) n := by
  obtain ⟨htakes, hfails⟩ := h
  exact ⟨conTakes_written htakes, List.getElem?_drop.trans hfails⟩

/-! ### A routine from its read on -/

theorem getcFromRead_gets {s : State} {c : Byte} {k : List KbdAnswer} (h : ReadGets s c k) :
    getcFromRead s = .next (State.setResult { s with kbd := k, hold := none } Reg.arg (zext8 c)) := by
  rw [getcFromRead, kbdRead_gets h, Res.out_done]

theorem getcFromRead_waits {s : State} (h : ReadWaits s) :
    getcFromRead s = .next { s with hold := some .getc } := by
  rw [getcFromRead, kbdRead_waits h, Res.out_ended]

theorem getcFromRead_fails {s : State} {k : List KbdAnswer} (h : ReadFailsNext s k) :
    getcFromRead s = .next { s with kbd := k, hold := none, fault := some .hostIOError } := by
  rw [getcFromRead, kbdRead_fails h, Res.out_ended]

theorem inFromRead_gets {s : State} {c : Byte} {k : List KbdAnswer} (h : ReadGets s c k) (hc : ConTakes s 1) :
    inFromRead s = .next ((written { s with kbd := k, hold := none } [c]).setResult Reg.arg (zext8 c)) := by
  have hecho : ConTakes { s with kbd := k, hold := none } 1 := hc
  rw [inFromRead, kbdRead_gets h, Res.out_done, conWrite_takes hecho, Res.out_done]

/-- The echo fails: the character read is lost with the routine. -/
theorem inFromRead_echoFails {s : State} {c : Byte} {k : List KbdAnswer} (h : ReadGets s c k)
    (hc : ConFailsAt s 0) : inFromRead s = .next (writeFailed { s with kbd := k, hold := none } []) := by
  have hecho : ConFailsAt { s with kbd := k, hold := none } 0 := hc
  rw [inFromRead, kbdRead_gets h, Res.out_done, conWrite_eq, conWriteAll_fails (by simp) hecho, Res.out_ended]
  rfl

theorem inFromRead_waits {s : State} (h : ReadWaits s) :
    inFromRead s = .next { s with hold := some .inChar } := by
  rw [inFromRead, kbdRead_waits h, Res.out_ended]

theorem inFromRead_fails {s : State} {k : List KbdAnswer} (h : ReadFailsNext s k) :
    inFromRead s = .next { s with kbd := k, hold := none, fault := some .hostIOError } := by
  rw [inFromRead, kbdRead_fails h, Res.out_ended]

/-- `IN` once its prompt is written (R131). -/
theorem exec_trapIn {s : State} (h : ConTakes s 19) :
    exec .trapIn s = inFromRead (written (enterTrap s) promptText) := by
  have hprompt : ConTakes (enterTrap s) inPrompt.length := h
  rw [exec, execTrapIn, conWriteAll_takes hprompt, Res.out_done]
  rfl

/-! ### The frame of a trap, and the character's condition -/

/-- The keyboard's answers and the hold are outside the frame. -/
theorem trapFrame_kbdRead {s t : State} (h : TrapFrame s t) (k : List KbdAnswer) (w : Option Hold) :
    TrapFrame s { t with kbd := k, hold := w } :=
  ⟨h.link, h.regs, h.pc, h.memory, h.kbdThen⟩

/-- So is the fault status. -/
theorem trapFrame_raise {s t : State} (h : TrapFrame s t) (f : Fault) : TrapFrame s (t.raise f) :=
  ⟨h.link, h.regs, h.pc, h.memory, h.kbdThen⟩

/-- A result in R0 stays inside it. -/
theorem trapFrame_setResult {s t : State} (h : TrapFrame s t) (v : Word) :
    TrapFrame s (t.setResult Reg.arg v) where
  link := (t.reg_setResult Reg.arg 7 v).trans ((if_neg (by decide)).trans h.link)
  regs r h7 h0 := (t.reg_setResult Reg.arg r v).trans ((if_neg h0).trans (h.regs r h7 h0))
  pc := h.pc
  memory := h.memory
  kbdThen := h.kbdThen

/-- A character is never negative as a word: `cond` is Z or P (R128). -/
theorem condOf_zext8 (c : Byte) : condOf (zext8 c) = if c = 0 then .z else .p := by
  have hzero : zext8 c = 0 ↔ c = 0 := by
    rw [zext8, ← BitVec.toNat_inj, ← BitVec.toNat_inj, BitVec.toNat_setWidth_of_le (by decide)]
    rfl
  split
  next h => exact (condOf_eq_z_iff _).2 (hzero.2 h)
  next h => exact (condOf_eq_p_iff _).2 ⟨by simp [zext8], fun h0 => h (hzero.1 h0)⟩

/-! ### The obligations: a host that answers -/

/-- Settles O25: the read takes the answers up to the character, and the character is the result. -/
theorem getcCompletes : Obligations.GetcCompletes := by
  unfold Obligations.GetcCompletes
  refine ⟨fun x => decode_trap x 0x20, fun s c k hh h => ⟨_, getcFromRead_gets (s := enterTrap s) h, ?_⟩⟩
  exact ⟨trapFrame_setResult (trapFrame_kbdRead (enterTrap_trapFrame s) k none) _,
    (State.reg_setResult _ _ 0 _).trans (if_pos rfl), condOf_zext8 c, rfl, rfl, rfl, ⟨rfl, rfl, hh.symm⟩⟩

/-- Settles O28: the twentieth byte taken is the echo, written after the read and before the result. -/
theorem inCompletes : Obligations.InCompletes := by
  unfold Obligations.InCompletes
  refine ⟨fun x => decode_trap x 0x23, fun s c k hh h hc => ?_⟩
  have hecho : ConTakes (written (enterTrap s) promptText) 1 := conTakes_written (s := enterTrap s) hc
  have hrun := (exec_trapIn (conTakes_mono hc (by decide))).trans
    (inFromRead_gets (s := written (enterTrap s) promptText) h hecho)
  have hread := trapFrame_kbdRead (trapFrame_written (enterTrap_trapFrame s) promptText) k none
  exact ⟨_, hrun, trapFrame_setResult (trapFrame_written hread [c]) _, (State.reg_setResult _ _ 0 _).trans (if_pos rfl),
    condOf_zext8 c, rfl, rfl, List.drop_drop, ⟨rfl, rfl, hh.symm⟩⟩

/-- Settles O31: the linkage and the raise are all of it, and a core with a fault is a stopped one. -/
theorem otherVectorFaults : Obligations.OtherVectorFaults := by
  unfold Obligations.OtherVectorFaults
  intro s v hv
  have hdec : decodeTrap v = .trapOther v := decodeTrap_other ((isRoutineVector_eq_false_iff v).2 hv)
  refine ⟨fun x => (decode_trap x v).trans hdec, _, rfl, trapFrame_raise (enterTrap_trapFrame s) _,
    reg_enterTrap_arg s, rfl, rfl, rfl, rfl, ⟨rfl, rfl, rfl, rfl⟩, ?_⟩
  exact step_of_stopped ((stopped_iff _).2 (.inr nofun))

/-! ### The obligations: a host that fails -/

/-- Settles O37: the routine ends in the state its failing port operation leaves, the bytes before it written. -/
theorem failedPortEndsTheRoutine : Obligations.FailedPortEndsTheRoutine := by
  unfold Obligations.FailedPortEndsTheRoutine
  intro s hh
  have hnone : (linked s).hold = none := hh
  refine ⟨fun h => ?_, fun n hn h => ?_, fun n hn h => ?_, fun k h => ⟨?_, fun hc => ?_⟩, fun c k h hc => ?_⟩
  · rw [exec, execTrapOut, conWrite_eq, conWriteAll_fails (s := enterTrap s) (by simp) h, Res.out_ended]
    rfl
  · rw [exec, execTrapHalt, conWriteAll_fails (s := enterTrap s) hn h, Res.out_ended]
    rfl
  · rw [exec, execTrapIn, conWriteAll_fails (s := enterTrap s) hn h, Res.out_ended]
    rfl
  · have hread := getcFromRead_fails (s := enterTrap s) h
    rw [← hnone] at hread
    exact hread
  · rw [exec_trapIn hc, inFromRead_fails (s := written (enterTrap s) promptText) h, ← hnone]
    rfl
  · have hecho : ConFailsAt (written (enterTrap s) promptText) 0 := conFailsAt_written (s := enterTrap s) hc
    rw [exec_trapIn hc.1, inFromRead_echoFails (s := written (enterTrap s) promptText) h hecho, ← hnone]
    simp [writeFailed, written, linked, enterTrap, promptText]

/-! ### The obligations: a host that lets wait -/

/-- A held core does what its routine does from the read on, where it was before the hold. -/
theorem step_held {u : State} (w : Hold) (hr : u.run = true) (hf : u.fault = none) :
    step { u with hold := some w } = resume w u := by
  rw [step_of_held (s := { u with hold := some w }) hr hf rfl, resume_unheld, resume_unheld w u]

/-- Settles O35: the hold is all a waiting read leaves, so what is supplied meets the read as if it had been
there from the start. -/
theorem waitingReadIsLiftedBySupply : Obligations.WaitingReadIsLiftedBySupply := by
  unfold Obligations.WaitingReadIsLiftedBySupply
  rintro s ⟨hrun, hfault, -⟩ hw
  have hgetc : getcFromRead (enterTrap s) = .next { enterTrap s with hold := some .getc } := getcFromRead_waits hw
  refine ⟨⟨_, hgetc, ?_⟩, fun hc => ?_⟩
  · exact ⟨trapFrame_kbdRead (enterTrap_trapFrame s) _ _, rfl, reg_enterTrap_arg s, rfl, hrun, hfault,
      ⟨rfl, rfl, rfl, rfl⟩, (step_held (u := enterTrap s) .getc hrun hfault).trans hgetc,
      fun more => step_held (u := (enterTrap s).supply more) .getc hrun hfault⟩
  · have hprompt := trapFrame_written (enterTrap_trapFrame s) promptText
    have hin : inFromRead (written (enterTrap s) promptText) =
        .next { written (enterTrap s) promptText with hold := some .inChar } := inFromRead_waits hw
    refine ⟨_, (exec_trapIn hc).trans hin, trapFrame_kbdRead hprompt _ _, rfl, reg_enterTrap_arg s, rfl, hrun,
      hfault, rfl, rfl, rfl, ?_, fun more => ?_⟩
    · exact (step_held (u := written (enterTrap s) promptText) .inChar hrun hfault).trans hin
    · exact (step_held (u := (written (enterTrap s) promptText).supply more) .inChar hrun hfault).trans
        (exec_trapIn (s := s.supply more) hc).symm

end Sys2Proof.Machine
end

