-- ==== Sys2Proof/Proofs/Strings.lean ====
section
/-! SUPPORT. `PUTS` and `PUTSP`, once for both: the routine is the scan of its rule, which writes a string to its end, or never ends and is held (R130, R132; log 8), and the obligations on them. -/

namespace Sys2Proof.Machine

open Sys2Proof.Safety

/-! ### The two routines as one -/

/-- The two scan routines: the trap, the hold of its scan, and the text of a word. -/
inductive ScanTrap : Instr → (Word → Hold) → (Word → List Byte) → Prop where
  | puts : ScanTrap .trapPuts .puts putsText
  | putsp : ScanTrap .trapPutsp .putsp putspText

theorem ScanTrap.emit_ne_nil {i : Instr} {w : Word → Hold} {emit : Word → List Byte} (h : ScanTrap i w emit)
    (x : Word) : emit x ≠ [] := by
  cases h with
  | puts => exact putsBytes_eq x ▸ putsBytes_ne_nil x
  | putsp => exact putspBytes_eq x ▸ putspBytes_ne_nil x

theorem ScanTrap.resume_eq {i : Instr} {w : Word → Hold} {emit : Word → List Byte} (h : ScanTrap i w emit)
    (a : Word) (s : State) : resume (w a) s = (scanString w emit a s).out fun _ u => .next u := by
  cases h with
  | puts => rw [← funext putsBytes_eq]; rfl
  | putsp => rw [← funext putspBytes_eq]; rfl

/-- The scan begins at the address in R0, which the linkage leaves. -/
theorem ScanTrap.exec_eq {i : Instr} {w : Word → Hold} {emit : Word → List Byte} (h : ScanTrap i w emit)
    (s : State) : exec i s = resume (w (s.reg 0)) (enterTrap s) := by
  rw [← reg_enterTrap_arg s]
  cases h <;> rfl

/-! ### The scan of the rule, or a hold on its way -/

/-- What a whole scan can leave: the end the rule gives it, or, where it has none, the routine held after some
words of it. -/
def ScanOutcome (w : Word → Hold) (emit : Word → List Byte) (a : Word) (s t : State) : Prop :=
  (ScanRun emit a s t ∧ t.hold = none) ∨
    (s.kbdThen ≠ none ∧ (¬ ∃ e, ScanRun emit a s e) ∧
      ∃ n, 0 < n ∧ ScanGoes emit n a s { t with hold := none } ∧ t.hold = some (w (a + BitVec.ofNat 16 n)))

/-- Where the keyboard input ends the scan does, so only an endless one is held. -/
theorem scanString_outcome (w : Word → Hold) {emit : Word → List Byte} (he : ∀ x, emit x ≠ []) (a : Word)
    {s : State} (hh : s.hold = none) :
    ∃ t, ((scanString w emit a s).out fun _ u => .next u) = .next t ∧ ScanOutcome w emit a s t := by
  obtain ⟨t, hrun, hr | hr, hhold⟩ | ⟨hno, n, u, hn, hgoes, hr⟩ := scanString_cases w he a s hh
  · exact ⟨t, by rw [hr, Res.out_done], .inl ⟨hrun, hhold⟩⟩
  · exact ⟨t, by rw [hr, Res.out_ended], .inl ⟨hrun, hhold⟩⟩
  · have hthen : s.kbdThen ≠ none := fun hl => by
      obtain ⟨t, ht, -⟩ := scan_runs w emit (scanBound s) a s hl (scanBound_enough a s)
      exact hno ⟨t, ht⟩
    have hu : { u with hold := none } = u := by rw [← (scanGoes_control hgoes).2.trans hh]
    rw [← hu] at hgoes
    exact ⟨{ u with hold := some (w (a + BitVec.ofNat 16 n)) }, by rw [hr, Res.out_ended],
      .inr ⟨hthen, hno, n, hn, hgoes, rfl⟩⟩

/-- The trap is that scan after its linkage; the scan is quiet, so the linkage is all that registers, `pc`,
`cond` and `run` show. -/
theorem ScanTrap.runs {i : Instr} {w : Word → Hold} {emit : Word → List Byte} (h : ScanTrap i w emit)
    {s : State} (hh : s.hold = none) :
    ∃ t, exec i s = .next t ∧ (∀ r, t.reg r = if r = 7 then s.pc else s.reg r) ∧ t.cond = s.cond ∧
      t.pc = s.pc ∧ t.run = s.run ∧ ScanOutcome w emit (s.reg 0) (linked s) t := by
  obtain ⟨t, ht, hout⟩ := scanString_outcome w h.emit_ne_nil (s.reg 0) (s := enterTrap s) hh
  have hq : Quiet (enterTrap s) t := (scanString_out ht).1
  exact ⟨t, ((h.exec_eq s).trans (h.resume_eq _ _)).trans ht, fun r => (hq.reg r).trans (reg_enterTrap s r),
    hq.cond, hq.pc, hq.run, hout⟩

/-- Settles O27: `PUTS` is the scan that writes a low byte a word. -/
theorem putsRunsTheScan : Obligations.PutsRunsTheScan := by
  unfold Obligations.PutsRunsTheScan
  exact ⟨fun x => decode_trap x 0x22, fun _ hh => ScanTrap.puts.runs hh⟩

/-- Settles O29: `PUTSP` is the scan that writes up to two bytes a word. -/
theorem putspRunsTheScan : Obligations.PutspRunsTheScan := by
  unfold Obligations.PutspRunsTheScan
  exact ⟨fun x => decode_trap x 0x24, fun _ hh => ScanTrap.putsp.runs hh⟩

/-! ### A string ended by a zero word -/

theorem written_append (s : State) (bs cs : List Byte) : written (written s bs) cs = written s (bs ++ cs) := by
  simp [written, List.append_assoc, List.drop_drop]

/-- Away from 0xFE00 the scan goes on over the words of a text and writes them, wherever the console takes them. -/
theorem scanGoes_text {emit : Word → List Byte} {text : List Word} {a : Word} {s : State}
    (hcell : ∀ j, (h : j < text.length) → s.cell (a + BitVec.ofNat 16 j) = text[j] ∧ text[j] ≠ 0)
    (hne : ∀ j, j < text.length → a + BitVec.ofNat 16 j ≠ 0xFE00)
    (hc : ConTakes s (text.flatMap emit).length) :
    ScanGoes emit text.length a s (written s (text.flatMap emit)) := by
  induction text generalizing a s with
  | nil => exact (written_nil s).symm ▸ .zero a s
  | cons w text ih =>
    have ha : a + BitVec.ofNat 16 0 = a := BitVec.add_zero a
    obtain ⟨hw, hw0⟩ := hcell 0 (Nat.zero_lt_succ _)
    have hread : ReadOf s a (s.cell a) s := .plain (ha ▸ hne 0 (Nat.zero_lt_succ _))
    rw [show s.cell a = w from ha ▸ hw] at hread
    rw [List.flatMap_cons, List.length_append] at hc
    rw [List.flatMap_cons, ← written_append]
    refine .more hread hw0 (conTakes_mono hc (Nat.le_add_right _ _))
      (ih (fun j hj => ?_) (fun j hj => ?_) (conTakes_written hc))
    · rw [word_add_succ]
      exact hcell (j + 1) (Nat.succ_lt_succ hj)
    · rw [word_add_succ]
      exact hne (j + 1) (Nat.succ_lt_succ hj)

/-- A scan that goes on and then ends is a scan with that end. -/
theorem scanRun_of_goes {emit : Word → List Byte} {n : Nat} {a : Word} {s u t : State}
    (h : ScanGoes emit n a s u) (ht : ScanRun emit (a + BitVec.ofNat 16 n) u t) : ScanRun emit a s t := by
  induction h with
  | zero a s => exact BitVec.add_zero a ▸ ht
  | more hr hw hc _ ih => exact .more hr hw hc (ih (by rwa [word_add_succ]))

/-- At a zero word the scan stops, in the state the read leaves. -/
theorem scanRun_at_zero {emit : Word → List Byte} {a : Word} {s u t : State} (h : ReadOf s a 0x0000 u)
    (ht : ScanRun emit a s t) : t = u := by
  cases ht with
  | stop h' => exact (readOf_unique h' h).2
  | more h' hw | writeFails h' hw => exact absurd (readOf_unique h' h).1 hw
  | readFails h' => exact (readOf_not_fails h h').elim

/-- The outcome of a scan that goes on and then meets a zero word is the state it has come to. -/
theorem ScanOutcome.eq_of_goes {w : Word → Hold} {emit : Word → List Byte} {n : Nat} {a : Word}
    {s u t : State} (h : ScanOutcome w emit a s t) (hgoes : ScanGoes emit n a s u)
    (hzero : ReadOf u (a + BitVec.ofNat 16 n) 0x0000 u) : t = u := by
  obtain ⟨hrun, -⟩ | ⟨-, hno, -⟩ := h
  · exact scanRun_at_zero hzero (scanRun_rest hgoes hrun)
  · exact absurd ⟨u, scanRun_of_goes hgoes (.stop hzero)⟩ hno

/-- Settles O33: the scan goes on over the text and stops at the zero word, so its one outcome is the linkage
and the text written. -/
theorem putsPrintsString : Obligations.PutsPrintsString := by
  unfold Obligations.PutsPrintsString
  intro s text hh hcell hend hne i emit hi hc
  obtain ⟨w, hscan⟩ : ∃ w, ScanTrap i w emit := by
    obtain ⟨rfl, rfl⟩ | ⟨rfl, rfl⟩ := hi
    · exact ⟨_, .puts⟩
    · exact ⟨_, .putsp⟩
  obtain ⟨t, ht, -, -, -, -, hout⟩ := hscan.runs hh
  have hgoes : ScanGoes emit text.length (s.reg 0) (linked s) (written (linked s) (text.flatMap emit)) :=
    scanGoes_text (s := linked s) hcell (fun j hj => hne j hj.le) hc
  have hzero : ReadOf (written (linked s) (text.flatMap emit)) (s.reg 0 + BitVec.ofNat 16 text.length) 0x0000
      (written (linked s) (text.flatMap emit)) := hend ▸ .plain (hne text.length le_rfl)
  obtain rfl := hout.eq_of_goes hgoes hzero
  exact ⟨_, ht, trapFrame_written (enterTrap_trapFrame s) _, reg_enterTrap_arg s, rfl, rfl, rfl, rfl,
    ⟨rfl, rfl, rfl⟩⟩

/-! ### A scan without end (R130 d) -/

/-- The key `c` is ready at every poll for ever, every write is taken, and no cell ends a string but 0xFE00,
which the poll fills. -/
structure Endless (c : Byte) (s : State) : Prop where
  kbd : s.kbd = []
  kbdThen : s.kbdThen = some c
  conPort : s.conPort = []
  cells : ∀ a, a ≠ 0xFE00 → s.cell a ≠ 0

theorem endless_written {c : Byte} {s : State} (h : Endless c s) (bs : List Byte) : Endless c (written s bs) :=
  ⟨h.kbd, h.kbdThen, by simp [written, h.conPort], h.cells⟩

/-- A read meets no zero word and leaves it so: what a poll writes to the keyboard's cells is not zero. -/
theorem endless_readOf {c : Byte} {s u : State} {a v : Word} (hc : c ≠ 0) (hs : Endless c s)
    (h : ReadOf s a v u) : v ≠ 0 ∧ Endless c u := by
  obtain ⟨hkbd, hthen, hport, hcells⟩ := hs
  cases h with
  | plain ha => exact ⟨hcells a ha, hkbd, hthen, hport, hcells⟩
  | noKey _ hk =>
    obtain hk | ⟨-, hk, -⟩ := hk
    · cases hkbd.symm.trans hk
    · cases hthen.symm.trans hk
  | @key _ x k hk =>
    obtain hk | ⟨-, hk, rfl⟩ := hk
    · cases hkbd.symm.trans hk
    · obtain rfl : c = x := Option.some.inj (hthen.symm.trans hk)
      have hx : (c.setWidth 16 : Word) ≠ 0 := fun h0 => hc (by
        apply BitVec.eq_of_toNat_eq
        rw [← BitVec.toNat_setWidth_of_le (w' := 16) (by decide), h0]
        rfl)
      refine ⟨by decide, rfl, hthen, hport, fun b hb => ?_⟩
      rw [cell_poll_key, if_neg hb]
      split
      next => exact hx
      next => exact hcells b hb

theorem endless_goes {c : Byte} {emit : Word → List Byte} {n : Nat} {a : Word} {s u : State} (hc : c ≠ 0)
    (hs : Endless c s) (h : ScanGoes emit n a s u) : Endless c u := by
  induction h with
  | zero => exact hs
  | more hr _ _ _ ih => exact ih (endless_written (endless_readOf hc hs hr).2 _)

theorem endless_no_end {c : Byte} {emit : Word → List Byte} {a : Word} {s t : State} (hc : c ≠ 0)
    (hs : Endless c s) (h : ScanRun emit a s t) : False := by
  induction h with
  | stop hr => exact (endless_readOf hc hs hr).1 rfl
  | more hr _ _ _ ih => exact ih (endless_written (endless_readOf hc hs hr).2 _)
  | readFails hr =>
    cases hr with
    | poll _ hk => cases hs.kbd.symm.trans hk
  | writeFails hr _ _ hf => simpa [(endless_readOf hc hs hr).2.conPort] using hf.2

/-- A running core held in the scan, which will never end. -/
def HeldInScan (w : Word → Hold) (c : Byte) (t : State) : Prop :=
  ∃ a, t.hold = some (w a) ∧ t.run = true ∧ t.fault = none ∧ Endless c t

theorem ScanOutcome.heldInScan {w : Word → Hold} {emit : Word → List Byte} {c : Byte} {a : Word} {s t : State}
    (hc : c ≠ 0) (hs : Endless c s) (hr : s.run = true) (hf : s.fault = none) (h : ScanOutcome w emit a s t) :
    HeldInScan w c t := by
  obtain ⟨hrun, -⟩ | ⟨-, -, n, -, hgoes, hhold⟩ := h
  · exact (endless_no_end hc hs hrun).elim
  · obtain ⟨hkbd, hthen, hport, hcells⟩ := endless_goes hc hs hgoes
    exact ⟨_, hhold, (scanGoes_quiet hgoes).run.trans hr, (scanGoes_control hgoes).1.trans hf,
      hkbd, hthen, hport, hcells⟩

/-- The step of such a core scans on, and leaves it held again. -/
theorem ScanTrap.step_heldInScan {i : Instr} {w : Word → Hold} {emit : Word → List Byte} {c : Byte} {t : State}
    (h : ScanTrap i w emit) (hc : c ≠ 0) (ht : HeldInScan w c t) : ∃ u, step t = .next u ∧ HeldInScan w c u := by
  obtain ⟨a, hhold, hr, hf, hkbd, hthen, hport, hcells⟩ := ht
  obtain ⟨u, hu, hout⟩ := scanString_outcome w h.emit_ne_nil a (s := { t with hold := none }) rfl
  refine ⟨u, ?_, hout.heldInScan (s := { t with hold := none }) hc ⟨hkbd, hthen, hport, hcells⟩ hr hf⟩
  rw [step_of_held hr hf hhold, resume_unheld, h.resume_eq, hu]

theorem ScanTrap.steps_heldInScan {i : Instr} {w : Word → Hold} {emit : Word → List Byte} {c : Byte} {t : State}
    (h : ScanTrap i w emit) (hc : c ≠ 0) (ht : HeldInScan w c t) (n : Nat) :
    ∃ u, Steps n t u ∧ HeldInScan w c u := by
  induction n generalizing t with
  | zero => exact ⟨t, .zero t, ht⟩
  | succ n ih =>
    obtain ⟨v, hv, hheld⟩ := h.step_heldInScan hc ht
    obtain ⟨u, hu, hheld⟩ := ih hheld
    exact ⟨u, .more hv hu, hheld⟩

/-- Either routine, begun where its scan never ends, is held after its step and after any number of steps more. -/
theorem ScanTrap.held_for_ever {i : Instr} {w : Word → Hold} {emit : Word → List Byte} {c : Byte} {s : State}
    (h : ScanTrap i w emit) (hs : Ready s) (hc : c ≠ 0) (he : Endless c s) :
    ∃ t, exec i s = .next t ∧
      ∀ n, ∃ u a, Steps n t u ∧ u.hold = some (w a) ∧ u.run = true ∧ u.fault = none := by
  obtain ⟨hrun, hfault, hhold⟩ := hs
  obtain ⟨hkbd, hthen, hport, hcells⟩ := he
  obtain ⟨t, ht, -, -, -, -, hout⟩ := h.runs hhold
  refine ⟨t, ht, fun n => ?_⟩
  have hheld : HeldInScan w c t := hout.heldInScan (s := linked s) hc ⟨hkbd, hthen, hport, hcells⟩ hrun hfault
  obtain ⟨u, hu, a, ha, hr, hf, -⟩ := h.steps_heldInScan hc hheld n
  exact ⟨u, a, hu, ha, hr, hf⟩

/-- Settles O34: nothing in the state can end the scan, and each step keeps it so. -/
theorem endlessScanNeverCompletes : Obligations.EndlessScanNeverCompletes := by
  unfold Obligations.EndlessScanNeverCompletes
  intro s c hs hkbd hthen hc hport hcells
  exact ⟨ScanTrap.puts.held_for_ever hs hc ⟨hkbd, hthen, hport, hcells⟩,
    ScanTrap.putsp.held_for_ever hs hc ⟨hkbd, hthen, hport, hcells⟩⟩

end Sys2Proof.Machine
end
